-- ==== Sys2Proof/Word.lean ====
section
/-! DEFINITION. The widths of the AH1 hash engine core: bytes, 64-bit register data, and the `AW`-bit addresses
and lengths (00_scope.md R5, R14). -/

namespace Sys2Proof

/-- R14: width of byte addresses and of the message length. `AW = 32` is the spec's default of a parameter
(92_eei_decisions.md D3). DESIGN CHOICE, log 2. Every rule below is written in terms of `AW`. -/
abbrev AW : Nat := 32

/-- R5: a byte is 8 bits. -/
abbrev Byte := BitVec 8

/-- R26: the data of a host register access. -/
abbrev Word64 := BitVec 64

/-- R14: a byte address of the input space, or a message length. -/
abbrev Addr := BitVec AW

end Sys2Proof
end

