-- ==== Sys2Proof/Syntax.lean ====
section
/-! DEFINITION. The syntax: the six commands of the opcode map (30_encoding.md R71), and the four hash variants
(00_scope.md R8). -/

namespace Sys2Proof

/-- The engine's instructions: one constructor per row of spec/opcode_table.json (R71). A command carries no
operand in its word (R72). -/
inductive Instr where
  /-- `HASH32`, OP = 000, R170. -/
  | hash32
  /-- `HASH64`, OP = 001, R171. -/
  | hash64
  /-- `HASH128`, OP = 010, R172. -/
  | hash128
  /-- `HASH256`, OP = 011, R173. -/
  | hash256
  /-- `MIX32`, OP = 100, R104. -/
  | mix32
  /-- `MIX64`, OP = 101, R105. -/
  | mix64
deriving DecidableEq, Repr

/-- R8: the four variants of the hash. -/
inductive Variant where
  | hash32
  | hash64
  | hash128
  | hash256
deriving DecidableEq, Repr

end Sys2Proof
end

