-- ==== Sys2Proof/Config.lean ====
section
/-! DEFINITION. The configuration record `CFG` (00_scope.md R9), its reference instance `REF` (R10 to R13), the
configuration the machine is built with, and the free values. `CFG` is a parameter and never state (10_state.md R33). -/

namespace Sys2Proof

/-- R9, fields `MIX32` and `MIX64`: the constants of the mixer at width `n`. -/
structure MixConst (n : Nat) where
  k1 : BitVec n
  k2 : BitVec n
  k3 : BitVec n
  s1 : Nat
  s2 : Nat
  s3 : Nat
  s4 : Nat
deriving DecidableEq, Repr

/-- R9, fields `V32` and `V64`: seeds, multipliers and rotations of a uniform variant, lanes w, x, y, z in order. -/
structure UniformConst (n : Nat) where
  seed0 : BitVec n
  seed1 : BitVec n
  seed2 : BitVec n
  seed3 : BitVec n
  p0 : BitVec n
  p1 : BitVec n
  p2 : BitVec n
  p3 : BitVec n
  r0 : Nat
  r1 : Nat
  r2 : Nat
  r3 : Nat
deriving DecidableEq, Repr

/-- R9, field `V256`: seeds and multipliers of w0, w1, x0, x1, y, z, and the four rotations. -/
structure DoubleConst where
  seed0 : BitVec 32
  seed1 : BitVec 32
  seed2 : BitVec 32
  seed3 : BitVec 32
  seed4 : BitVec 64
  seed5 : BitVec 64
  q0 : BitVec 32
  q1 : BitVec 32
  q2 : BitVec 32
  q3 : BitVec 32
  q4 : BitVec 64
  q5 : BitVec 64
  r0 : Nat
  r1 : Nat
  r2 : Nat
  r3 : Nat
deriving DecidableEq, Repr

/-- R9: the configuration record `CFG`. -/
structure Cfg where
  mix32 : MixConst 32
  mix64 : MixConst 64
  v32 : UniformConst 32
  v64 : UniformConst 64
  v256 : DoubleConst
deriving DecidableEq, Repr

/-- R10: `REF.MIX32`. -/
def Cfg.refMix32 : MixConst 32 where
  k1 := 0x85EBCA6B#32
  s1 := 15
  k2 := 0xC2B2AE35#32
  s2 := 13
  s3 := 11
  s4 := 7
  k3 := 0x27D4EB2F#32

/-- R10: `REF.MIX64`. -/
def Cfg.refMix64 : MixConst 64 where
  k1 := 0xFF51AFD7ED558CCD#64
  s1 := 29
  k2 := 0xC4CEB9FE1A85EC53#64
  s2 := 32
  s3 := 23
  s4 := 17
  k3 := 0x9E3779B97F4A7C15#64

/-- R11: `REF.V32`. -/
def Cfg.refV32 : UniformConst 32 where
  seed0 := 0x243F6A88#32
  seed1 := 0x85A308D3#32
  seed2 := 0x13198A2E#32
  seed3 := 0x03707344#32
  p0 := 0x9E3779B1#32
  p1 := 0x85EBCA77#32
  p2 := 0xC2B2AE3D#32
  p3 := 0x27D4EB2F#32
  r0 := 5
  r1 := 11
  r2 := 17
  r3 := 23

/-- R12: `REF.V64`. -/
def Cfg.refV64 : UniformConst 64 where
  seed0 := 0x243F6A8885A308D3#64
  seed1 := 0x13198A2E03707344#64
  seed2 := 0xA4093822299F31D0#64
  seed3 := 0x082EFA98EC4E6C89#64
  p0 := 0x9E3779B97F4A7C15#64
  p1 := 0xBF58476D1CE4E5B9#64
  p2 := 0x94D049BB133111EB#64
  p3 := 0xC2B2AE3D27D4EB4F#64
  r0 := 7
  r1 := 19
  r2 := 31
  r3 := 43

/-- R13: `REF.V256`. -/
def Cfg.refV256 : DoubleConst where
  seed0 := 0x452821E6#32
  seed1 := 0x38D01377#32
  seed2 := 0xBE5466CF#32
  seed3 := 0x34E90C6C#32
  seed4 := 0xC0AC29B7C97C50DD#64
  seed5 := 0x3F84D5B5B5470917#64
  q0 := 0x165667B1#32
  q1 := 0xD3A2646D#32
  q2 := 0xFD7046C5#32
  q3 := 0xB55A4F09#32
  q4 := 0xD6E8FEB86659FD93#64
  q5 := 0xA0761D6478BD642F#64
  r0 := 9
  r1 := 13
  r2 := 29
  r3 := 37

/-- R10 to R13: the reference configuration `REF`, the spec's own choice (92_eei_decisions.md D5). -/
def Cfg.ref : Cfg where
  mix32 := Cfg.refMix32
  mix64 := Cfg.refMix64
  v32 := Cfg.refV32
  v64 := Cfg.refV64
  v256 := Cfg.refV256

/-- The configuration the machine of this model is built with: `REF`, the spec's default of the parameter `CFG`.
DESIGN CHOICE, log 1: unsafe for a claim about another build. The operations take the configuration as an
argument, so that a law can be stated for every `CFG`. -/
def Config.cfg : Cfg := Cfg.ref

/-- R31, 93_implementation_defined.md U5: the value of OUT0..OUT3 while DONE = 0 is any value, a fresh draw at each
read. The free values are this constant applied to a counter of draws; it has no body, so no proof can see a
value of it. Log 4. -/
opaque Config.freeWord : Nat → Word64

/-- What a byte of the input space that nothing has written reads as. The spec gives the input space no contents
(20_memory.md R50, R63). DESIGN CHOICE, log 5: unsafe. -/
def Config.unlistedByte : Byte := 0

end Sys2Proof
end

