-- ==== Sys2Proof/WellFormed.lean ====
section
/-! DEFINITION. Well-formedness: of an instruction, and of a configuration record (00_scope.md R9). -/

namespace Sys2Proof

/-- R72: a command carries no operand in its word, so nothing in an instruction can be out of range. -/
def Instr.wellFormed : Instr → Bool
  | .hash32 => true
  | .hash64 => true
  | .hash128 => true
  | .hash256 => true
  | .mix32 => true
  | .mix64 => true

/-- "fixed odd integers" (R9). -/
def isOdd (v : BitVec n) : Bool := v.getLsbD 0

/-- R6, R9: every shift and rotate amount lies in 1..N-1. -/
def amountOk (n r : Nat) : Bool := 1 ≤ r && r < n

/-- R9, rows `MIX32` and `MIX64`: K1 odd, S1..S4 in 1..N-1; no parity is required of K2 and K3. -/
def MixConst.wellFormed (k : MixConst n) : Bool :=
  isOdd k.k1 && amountOk n k.s1 && amountOk n k.s2 && amountOk n k.s3 && amountOk n k.s4

/-- R9, rows `V32` and `V64`: each P odd, each R in 1..W-1; the seeds are free. -/
def UniformConst.wellFormed (u : UniformConst n) : Bool :=
  isOdd u.p0 && isOdd u.p1 && isOdd u.p2 && isOdd u.p3 &&
    amountOk n u.r0 && amountOk n u.r1 && amountOk n u.r2 && amountOk n u.r3

/-- R9, row `V256`: each Q odd, R[0] and R[1] in 1..31, R[2] and R[3] in 1..63. -/
def DoubleConst.wellFormed (d : DoubleConst) : Bool :=
  isOdd d.q0 && isOdd d.q1 && isOdd d.q2 && isOdd d.q3 && isOdd d.q4 && isOdd d.q5 &&
    amountOk 32 d.r0 && amountOk 32 d.r1 && amountOk 64 d.r2 && amountOk 64 d.r3

/-- R9: the constraints on a configuration record. -/
def Cfg.wellFormed (c : Cfg) : Bool :=
  c.mix32.wellFormed && c.mix64.wellFormed && c.v32.wellFormed && c.v64.wellFormed && c.v256.wellFormed

end Sys2Proof
end

