-- ==== Sys2Proof/Decode.lean ====
section
/-! DEFINITION. The command word (30_encoding.md R70 to R74): a total decoder of 64-bit words that rejects by name,
and after it the encoder. -/

namespace Sys2Proof

/-- R73: the two reasons for which a command word is illegal. -/
inductive IllegalWord where
  /-- `v[63:3] != 0`. -/
  | zeroFieldSet
  /-- `v[2:0]` is 110 or 111. -/
  | reservedOp
deriving DecidableEq, Repr

/-- R70, bit 0: WSEL, the lane width select. -/
def wselBit (v : Word64) : Bool := v.getLsbD 0

/-- R70, bit 1: SPREAD, the assembly mode of a hash command. -/
def spreadBit (v : Word64) : Bool := v.getLsbD 1

/-- R70, bit 2: TEST, set for a mixer test command. -/
def testBit (v : Word64) : Bool := v.getLsbD 2

/-- R70: `OP = v[2:0]`. -/
def opField (v : Word64) : BitVec 3 := v.extractLsb' 0 3

/-- R70, bits 63:3: ZERO, which must be 0. -/
def zeroField (v : Word64) : BitVec 61 := v.extractLsb' 3 61

/-- R71, R73: the command a word stands for, or why it is illegal. -/
def decode (v : Word64) : Except IllegalWord Instr :=
  if zeroField v ≠ 0 then .error .zeroFieldSet
  else
    match testBit v, spreadBit v, wselBit v with
    | false, false, false => .ok .hash32
    | false, false, true => .ok .hash64
    | false, true, false => .ok .hash128
    | false, true, true => .ok .hash256
    | true, false, false => .ok .mix32
    | true, false, true => .ok .mix64
    | true, true, _ => .error .reservedOp

/-- The instruction the decoder reads from a table word: `nbits` bits, bit 0 the least significant. A command word
is the 64-bit data of a register write (R70), so a table word is that data itself; bits above `nbits` are 0. Log 18. -/
def decodeTableWord (nbits w : Nat) : Option Instr :=
  let word := w % 2 ^ nbits
  if word < 2 ^ 64 then
    match decode (BitVec.ofNat 64 word) with
    | .ok i => some i
    | .error _ => none
  else none

/-- R71: the `match` value of each command. -/
def encode : Instr → Word64
  | .hash32 => 0x0000000000000000#64
  | .hash64 => 0x0000000000000001#64
  | .hash128 => 0x0000000000000002#64
  | .hash256 => 0x0000000000000003#64
  | .mix32 => 0x0000000000000004#64
  | .mix64 => 0x0000000000000005#64

end Sys2Proof
end

