-- ==== Sys2Proof/Machine/State.lean ====
section
/-! DEFINITION. The state of one engine instance with its input space and its host (10_state.md R20 to R35), the
fault and refusal reasons, and the state after reset. -/

namespace Sys2Proof.Machine

open Sys2Proof

/-- R24: the sequencer phase PH. -/
inductive Phase where
  | idle
  | term
  | loop
  | tail
  | final
  | mixp
  | done
deriving DecidableEq, Repr

/-- R181: the three interface refusals. They are verdicts on a command write, recorded in ERR and ERRCODE; the
machine goes on. -/
inductive RefusalCode where
  /-- Code 1, R182. -/
  | illegalCmd
  /-- Code 2, R183. -/
  | busyCmd
  /-- Code 3, R185. -/
  | range
deriving DecidableEq, Repr

/-- R21: the four lane storage registers. -/
structure Lanes where
  lw : Word64
  lx : Word64
  ly : Word64
  lz : Word64
deriving DecidableEq, Repr

/-- R31: the four output registers, written all at once. -/
structure Outs where
  out0 : Word64
  out1 : Word64
  out2 : Word64
  out3 : Word64
deriving DecidableEq, Repr

/-- What an address of the input space does with the engine's `MemRead`. The platform decides it (R63). Log 6. -/
inductive AddrKind where
  /-- It answers, and reading has no side effect (R57). -/
  | plain
  /-- It never answers (R58 (a), 93_implementation_defined.md U6). -/
  | silent
  /-- A read of it has side effects (R57, U8). -/
  | sideEffects
deriving DecidableEq, Repr

/-- R159: what the host, or the platform, can do in one turn. -/
inductive HostAct where
  /-- `RegRead(n)` (R26). -/
  | regRead (n : Nat)
  /-- `RegWrite(n, v)` (R26). -/
  | regWrite (n : Nat) (v : Word64)
  /-- R75: repeat `RegRead(1)` until DONE is 1. -/
  | wait
  /-- The host reads a byte of the input space (R159). -/
  | memRead (a : Addr)
  /-- The host writes a byte of the input space (R159). -/
  | memWrite (a : Addr) (b : Byte)
  /-- The platform changes what an address does with the engine's reads (R58 (a), log 6). -/
  | setKind (a : Addr) (k : AddrKind)
deriving DecidableEq, Repr

/-- R159: one turn of the interleaving of engine and host, and the reset event (R200). -/
inductive Turn where
  /-- The engine takes its enabled step, if it has one. -/
  | engine
  /-- The host acts. -/
  | host (a : HostAct)
  /-- The reset event. -/
  | reset
deriving DecidableEq, Repr

/-- The model's own faults. The spec gives the core none (R180): no run from reset raises one. -/
inductive Fault where
  /-- Raised by an engine step whose latches (OPL, LENL, I) no accepted command can have left in that phase: the
  step would read a dead element (R35, U9). Safe. -/
  | deadState
  /-- Raised by an engine read of an address that is not in the input space (R50). Safe. -/
  | outsideInputSpace
deriving DecidableEq, Repr

/-- The model's own refusals: actions it gives no meaning. -/
inductive Refusal where
  /-- Raised by exec's arm of an instruction that has no meaning yet. None is left in this model. Safe. -/
  | notModelled (mnemonic : String)
  /-- Raised by the launch of a hash command whose window holds an address with read side effects, and by an engine
  step that meets one (R57: "a model refuses such a launch"; U8). Safe. -/
  | sideEffectWindow
  /-- Raised by the launch of a hash command whose window holds an address that does not answer the engine's reads
  (R58 (a), U6: "a model refuses launches that break it"). An address that stops answering later stalls the engine
  instead. Safe. -/
  | silentWindow
deriving DecidableEq, Repr

/-- All the state the spec gives the machine (R20 to R35, R50), and the model's own `kinds`, `agenda`, `rdata` and
`draws`. BUSY and DONE are functions of `ph` (R28). -/
structure State where
  /-- PH, R24. -/
  ph : Phase
  /-- I, the running byte offset, R24. -/
  i : Addr
  /-- LW, LX, LY, LZ, R21. -/
  lanes : Lanes
  /-- The scratch tail buffer T[0..31], R23. -/
  t : Vector Byte 32
  /-- LCMD, R25. -/
  lcmd : Word64
  /-- OPL, R25. -/
  opl : BitVec 3
  /-- BASEL, R25. -/
  basel : Addr
  /-- LENL, R25. -/
  lenl : Addr
  /-- MIXL, R25. -/
  mixl : Word64
  /-- BASE, register 2, R29. -/
  base : Addr
  /-- LEN, register 3, R29. -/
  len : Addr
  /-- MIXIN, register 4, R30. -/
  mixin : Word64
  /-- ERR, STATUS bit 2, R28. -/
  err : Bool
  /-- ERRCODE, STATUS bits 6:4, R28. -/
  errcode : BitVec 3
  /-- OUT0..OUT3, registers 8 to 11, R31. -/
  out : Outs
  /-- Mem, the input space, R50: sorted by address, no entry equal to an unlisted byte. -/
  mem : List Host.Cell
  /-- The addresses that are not plain, sorted (log 6). -/
  kinds : List (Nat × AddrKind)
  /-- The turns still to come (R159, log 9). -/
  agenda : List Turn
  /-- The data of the last host read (R7, log 11). -/
  rdata : Word64
  /-- How many free values have been drawn (R31, log 4). -/
  draws : Nat
deriving DecidableEq, Repr

/-- R35, R200: the machine right after reset. Where R35 says "unspecified" the value is 0, DESIGN CHOICE, log 3. -/
def State.reset : State where
  ph := .idle
  i := 0
  lanes := ⟨0, 0, 0, 0⟩
  t := Vector.replicate 32 0
  lcmd := 0
  opl := 0
  basel := 0
  lenl := 0
  mixl := 0
  base := 0
  len := 0
  mixin := 0
  err := false
  errcode := 0
  out := ⟨0, 0, 0, 0⟩
  mem := []
  kinds := []
  agenda := []
  rdata := 0
  draws := 0

end Sys2Proof.Machine
end

