-- ==== Sys2Proof/Machine/Ops.lean ====
section
/-! DEFINITION. The shared operations: rotations and halves (00_scope.md R5, R6), the input space (20_memory.md),
the refusal of a command and its acknowledgement (60_exceptions.md R184, R189), the latches (10_state.md R25), and
the reset event (70_reset_and_hazards.md R200). -/

namespace Sys2Proof.Machine

open Sys2Proof

/-! ### Words -/

/-- R6: `rotl_N(a, r) = shl_N(a, r) | shr_N(a, N - r)` for 0 < r < N, and `rotl_N(a, 0) = a`. -/
def rotl (a : BitVec n) (r : Nat) : BitVec n := (a <<< r) ||| (a >>> (n - r))

/-- R6: `rotr_N(a, r) = rotl_N(a, (N - r) mod N)`. -/
def rotr (a : BitVec n) (r : Nat) : BitVec n := rotl a ((n - r) % n)

/-- R5: `lo32(v) = v[31:0]`. -/
def lo32 (v : Word64) : BitVec 32 := v.extractLsb' 0 32

/-- R5: `hi32(v) = v[63:32]`. -/
def hi32 (v : Word64) : BitVec 32 := v.extractLsb' 32 32

/-- R5: `cat(hi, lo)` of two 32-bit values. -/
def cat32 (hi lo : BitVec 32) : Word64 := hi ++ lo

/-! ### Sparse data by address -/

/-- What a sorted association list with default `d` holds at `a`. -/
def sparseGet (d : α) : List (Nat × α) → Nat → α
  | [], _ => d
  | (k, v) :: m, a => if k = a then v else sparseGet d m a

/-- Put `v` at `a`, keeping the list sorted and free of the default `d`. -/
def sparsePut [DecidableEq α] (d : α) (a : Nat) (v : α) : List (Nat × α) → List (Nat × α)
  | [] => if v = d then [] else [(a, v)]
  | (k, w) :: m =>
    if a < k then if v = d then (k, w) :: m else (a, v) :: (k, w) :: m
    else if a = k then if v = d then m else (a, v) :: m
    else (k, w) :: sparsePut d a v m

/-- The canonical form: addresses strictly rising and inside the input space, no entry equal to the default. -/
abbrev sparseWf [DecidableEq α] (d : α) (m : List (Nat × α)) : Prop :=
  m.Pairwise (fun x y => x.1 < y.1) ∧ ∀ e ∈ m, e.1 < 2 ^ AW ∧ e.2 ≠ d

/-! ### The input space -/

/-- The canonical form of the input space's contents. -/
abbrev Memory.wf (m : List Host.Cell) : Prop := sparseWf Config.unlistedByte m

/-- R50: `Mem[a]`. -/
def memByte (m : List Host.Cell) (a : Nat) : Byte := sparseGet Config.unlistedByte m a

/-- A write of one byte by an agent other than the engine (R58, R59). It stores the byte whatever the kind of the
address: for an address that is not plain the spec says nothing, DESIGN CHOICE, log 22. -/
def memSet (a : Addr) (b : Byte) (s : State) : State :=
  { s with mem := sparsePut Config.unlistedByte a.toNat b s.mem }

/-- What the address does with the engine's reads (R57, R58, log 6). -/
def kindAt (s : State) (a : Nat) : AddrKind := sparseGet AddrKind.plain s.kinds a

/-- The platform changes the kind of an address; the byte it holds stays, DESIGN CHOICE, log 22. -/
def kindSet (a : Addr) (k : AddrKind) (s : State) : State :=
  { s with kinds := sparsePut AddrKind.plain a.toNat k s.kinds }

/-- The outcome of engine reads. -/
inductive Access (α : Type) where
  /-- The bytes read. -/
  | data (x : α)
  /-- A read that is never answered (R58 (a), U6). -/
  | noAnswer
  /-- A read of memory with read side effects (R57, U8). -/
  | sideEffect
  /-- A read outside the input space (R50). -/
  | outside
deriving DecidableEq, Repr

/-- R53: `MemRead(a, 1)`, the engine's only access. -/
def memRead (s : State) (a : Nat) : Access Byte :=
  if a < 2 ^ AW then
    match kindAt s a with
    | .plain => .data (memByte s.mem a)
    | .silent => .noAnswer
    | .sideEffects => .sideEffect
  else .outside

/-- R55: the byte reads of one step, in the order of the list; the first that gives no byte decides. -/
def memReads (s : State) : List Nat → Access (List Byte)
  | [] => .data []
  | a :: as =>
    match memRead s a with
    | .data b =>
      match memReads s as with
      | .data bs => .data (b :: bs)
      | .noAnswer => .noAnswer
      | .sideEffect => .sideEffect
      | .outside => .outside
    | .noAnswer => .noAnswer
    | .sideEffect => .sideEffect
    | .outside => .outside

/-- One engine step over the bytes it reads. A read that is never answered leaves the engine where it is (U6,
`stuck`, BUSY stays 1), log 7. It was answering when the command was issued (log 23). -/
def withBytes (s : State) (addrs : List Nat) (k : List Byte → State) : Host.Outcome State Fault Refusal :=
  match memReads s addrs with
  | .data bs => .next (k bs)
  | .noAnswer => .next s
  | .sideEffect => .refused .sideEffectWindow
  | .outside => .fault .outsideInputSpace

/-- The `n` addresses from `a` on, in increasing order (R55). -/
def addrsFrom (a n : Nat) : List Nat := (List.range n).map (a + ·)

/-! ### Refusals -/

/-- R181: the code recorded in ERRCODE. -/
def RefusalCode.code : RefusalCode → BitVec 3
  | .illegalCmd => 1
  | .busyCmd => 2
  | .range => 3

/-- R184: what `refuse <Code>` does, and all it does. The engine has no trap entry (R188): this is the shared
operation in its place. -/
def refuse (r : RefusalCode) (s : State) : State :=
  if s.err then s else { s with err := true, errcode := r.code }

/-- R28, R189: the host's acknowledgement clears ERR and ERRCODE together and restores nothing else. -/
def clearErr (s : State) : State := { s with err := false, errcode := 0 }

/-! ### Turns, free values and latches -/

/-- The agenda after a turn was taken (log 9). -/
def setAgenda (rest : List Turn) (s : State) : State := { s with agenda := rest }

/-- Four free values, for OUT0..OUT3 when they "become unspecified" (R160, log 4). -/
def freeOuts (k : Nat) : Outs :=
  ⟨Config.freeWord k, Config.freeWord (k + 1), Config.freeWord (k + 2), Config.freeWord (k + 3)⟩

/-- R160, the part of acceptance common to all commands: LCMD, OPL, BASEL, LENL, MIXL take the command word and its
operands, and OUT0..OUT3 become unspecified. -/
def latch (v : Word64) (s : State) : State :=
  { s with
    lcmd := v
    opl := opField v
    basel := s.base
    lenl := s.len
    mixl := s.mixin
    out := freeOuts s.draws
    draws := s.draws + 4 }

/-! ### Reset -/

/-- R200: the reset event, at any time and in any phase. Every piece of the engine's state takes its value of R35;
the input space is no part of the engine. Log 17. -/
def resetEvent (s : State) : State :=
  { State.reset with
    mem := s.mem
    kinds := s.kinds
    agenda := s.agenda
    rdata := s.rdata
    draws := s.draws }

end Sys2Proof.Machine
end

