-- ==== Sys2Proof/Machine/Operands.lean ====
section
/-! DEFINITION. Operands: the variant geometry (00_scope.md R8), `fetch` (40_fetch.md R90), the loop count
(42_absorb.md R118), the addresses each step reads (20_memory.md R54, R55), and the length and offset terms
(42_absorb.md R112, 43_tail.md R132). -/

namespace Sys2Proof.Machine

open Sys2Proof

/-- R8: the chunk size C in bytes. -/
def chunkSize : Variant → Nat
  | .hash32 => 16
  | .hash64 => 32
  | .hash128 => 16
  | .hash256 => 32

/-- R71: the command that starts a variant. -/
def commandOf : Variant → Instr
  | .hash32 => .hash32
  | .hash64 => .hash64
  | .hash128 => .hash128
  | .hash256 => .hash256

/-- R70, R71: the variant a latched opcode selects: TEST = 0, then SPREAD and WSEL. -/
def variantOf (opl : BitVec 3) : Option Variant :=
  match opl.getLsbD 2, opl.getLsbD 1, opl.getLsbD 0 with
  | false, false, false => some .hash32
  | false, false, true => some .hash64
  | false, true, false => some .hash128
  | false, true, true => some .hash256
  | true, _, _ => none

/-- R118: `n_full = floor((L - 1) / C)` for L >= 1, and 0 for L = 0. -/
def nFull (v : Variant) (len : Nat) : Nat :=
  if len = 0 then 0 else (len - 1) / chunkSize v

/-! ### fetch -/

/-- R90: the little-endian value of a byte string, the byte at the lowest address least significant. -/
def littleEndian : List Byte → Nat
  | [] => 0
  | b :: bs => b.toNat + 256 * littleEndian bs

/-- R90: `fetch(buf, off, width)`, `width/8` bytes from `off` on. The engine uses widths 32 and 64. -/
def fetch (buf : List Byte) (off width : Nat) : BitVec width :=
  BitVec.ofNat width (littleEndian ((buf.drop off).take (width / 8)))

/-! ### The windows the steps read -/

/-- R134, R162: the addresses of the TERM step, `BASEL + L - C + k`. -/
def termAddrs (v : Variant) (s : State) : List Nat :=
  addrsFrom (s.basel.toNat + (s.lenl.toNat - chunkSize v)) (chunkSize v)

/-- R163: the addresses of a LOOP step, `BASEL + I + k`. -/
def loopAddrs (v : Variant) (s : State) : List Nat :=
  addrsFrom (s.basel.toNat + s.i.toNat) (chunkSize v)

/-- R131: the addresses of the TAIL step, `BASEL + I + k` for k below `rem = L - I`. -/
def tailAddrs (s : State) : List Nat :=
  addrsFrom (s.basel.toNat + s.i.toNat) (s.lenl.toNat - s.i.toNat)

/-- R54, R55: the addresses the engine's next step reads, in order. -/
def stepAddrs (s : State) : List Nat :=
  match variantOf s.opl with
  | none => []
  | some v =>
    match s.ph with
    | .term => termAddrs v s
    | .loop => loopAddrs v s
    | .tail => tailAddrs s
    | .idle => []
    | .final => []
    | .mixp => []
    | .done => []

/-! ### Offset and length terms -/

/-- R112, R132: an address-width value at lane width `n`: `trunc_n` when n <= AW, `zext_n` when n > AW. -/
def atWidth (n : Nat) (a : Addr) : BitVec n := a.setWidth n

/-! ### Issue checks -/

/-- R185: the exact sum BASE + LEN exceeds 2^AW. -/
def outOfRange (s : State) : Bool := 2 ^ AW < s.base.toNat + s.len.toNat

/-- The window [BASE, BASE + LEN) holds an address of kind `k`: one with read side effects (R57, U8), or one that
does not answer the engine's reads at issue (R58 (a), U6). -/
def windowHas (k : AddrKind) (s : State) : Bool :=
  s.kinds.any fun e =>
    decide (e.2 = k) && s.base.toNat ≤ e.1 && e.1 < s.base.toNat + s.len.toNat

end Sys2Proof.Machine
end

