-- ==== Sys2Proof/Machine/Absorb.lean ====
section
/-! DEFINITION. Seeds (45_commands.md R161), the absorption step in its uniform form (42_absorb.md R110 to R112) and its
double-width form (R114 to R116), and the lane permutation (R113, R117). -/

namespace Sys2Proof.Machine

open Sys2Proof

/-- R20: the four lanes of a uniform variant, as `n`-bit values. -/
structure Quad (n : Nat) where
  w : BitVec n
  x : BitVec n
  y : BitVec n
  z : BitVec n
deriving DecidableEq, Repr

/-- R21: the lanes in the storage registers, read at width `n`. -/
def Lanes.quad (n : Nat) (l : Lanes) : Quad n :=
  ⟨l.lw.setWidth n, l.lx.setWidth n, l.ly.setWidth n, l.lz.setWidth n⟩

/-- R21: `n`-bit lanes put in the storage registers, zero-extended to 64 bits. -/
def Quad.lanes (q : Quad n) : Lanes :=
  ⟨q.w.setWidth 64, q.x.setWidth 64, q.y.setWidth 64, q.z.setWidth 64⟩

/-- R161: the seeds of a uniform variant. -/
def uniformSeeds (u : UniformConst n) : Lanes := Quad.lanes ⟨u.seed0, u.seed1, u.seed2, u.seed3⟩

/-- R161: the seeds of hash256; sub-register 0 is the low half (R21). -/
def doubleSeeds (d : DoubleConst) : Lanes :=
  ⟨cat32 d.seed1 d.seed0, cat32 d.seed3 d.seed2, d.seed4, d.seed5⟩

/-- R161: the lanes at the start of every computation. -/
def seeds (c : Cfg) : Variant → Lanes
  | .hash32 => uniformSeeds c.v32
  | .hash64 => uniformSeeds c.v64
  | .hash128 => uniformSeeds c.v32
  | .hash256 => doubleSeeds c.v256

/-- R110, R111: the uniform absorption step at width `n` with offset term `t`; four assignments in order, each seeing
the ones before it. -/
def absorbUniform (u : UniformConst n) (q : Quad n) (ch : List Byte) (t : BitVec n) : Quad n :=
  let a := fetch ch 0 n
  let b := fetch ch (n / 8) n
  let c := fetch ch (2 * (n / 8)) n
  let d := fetch ch (3 * (n / 8)) n
  let w := ((q.w ^^^ rotl a u.r0) * u.p0) + (q.x ^^^ t)
  let x := ((q.x ^^^ rotl b u.r1) * u.p1) + (q.y ^^^ t) + w
  let y := ((q.y ^^^ rotl c u.r2) * u.p2) + (q.z ^^^ t) + x
  let z := ((q.z ^^^ rotl d u.r3) * u.p3) + (w ^^^ t) + y
  ⟨w, x, y, z⟩

/-- R114, R116: the double-width absorption step: w0, w1, x0, x1 with 32-bit arithmetic, y and z with 64-bit
arithmetic, in this order. -/
def absorbDouble (k : DoubleConst) (l : Lanes) (ch : List Byte) (i : Addr) : Lanes :=
  let a0 := fetch ch 0 32
  let a1 := fetch ch 4 32
  let b0 := fetch ch 8 32
  let b1 := fetch ch 12 32
  let c := fetch ch 16 64
  let d := fetch ch 24 64
  let t32 := atWidth 32 i
  let t64 := atWidth 64 i
  let w0 := ((lo32 l.lw ^^^ rotl a0 k.r0) * k.q0) + (lo32 l.lx ^^^ t32)
  let w1 := ((hi32 l.lw ^^^ rotl a1 k.r0) * k.q1) + (hi32 l.lx ^^^ t32) + w0
  let x0 := ((lo32 l.lx ^^^ rotl b0 k.r1) * k.q2) + (lo32 l.ly ^^^ t32) + w1
  let x1 := ((hi32 l.lx ^^^ rotl b1 k.r1) * k.q3) + (hi32 l.ly ^^^ t32) + x0
  let y := ((l.ly ^^^ rotl c k.r2) * k.q4) + (l.lz ^^^ t64) + cat32 x1 x0
  let z := ((l.lz ^^^ rotl d k.r3) * k.q5) + (cat32 w1 w0 ^^^ t64) + y
  ⟨cat32 w1 w0, cat32 x1 x0, y, z⟩

/-- R111, R116: the absorption step of a variant, of the chunk `ch` at byte offset `i`. -/
def absorb (c : Cfg) (v : Variant) (l : Lanes) (ch : List Byte) (i : Addr) : Lanes :=
  match v with
  | .hash32 => (absorbUniform c.v32 (l.quad 32) ch (atWidth 32 i)).lanes
  | .hash64 => (absorbUniform c.v64 (l.quad 64) ch (atWidth 64 i)).lanes
  | .hash128 => (absorbUniform c.v32 (l.quad 32) ch (atWidth 32 i)).lanes
  | .hash256 => absorbDouble c.v256 l ch i

/-- R113, R117: the permutation, on the storage registers, in parallel: w stays, x <- z, y <- x, z <- y. -/
def permute (l : Lanes) : Lanes := ⟨l.lw, l.lz, l.lx, l.ly⟩

end Sys2Proof.Machine
end

