-- ==== Sys2Proof/Machine/Mixer.lean ====
section
/-! DEFINITION. The avalanche mixer (41_mixer.md R100, R101). -/

namespace Sys2Proof.Machine

open Sys2Proof

/-- R100, R101: the five steps of the mixer at width `n`. -/
def mixer (k : MixConst n) (v : BitVec n) : BitVec n :=
  let v1 := v * k.k1
  let v2 := v1 ^^^ rotr v1 k.s1
  let v3 := v2 + k.k2 * (v2 >>> k.s2)
  let v4 := v3 * rotl v3 k.s3
  v4 ^^^ ((v4 <<< k.s4) * k.k3)

/-- R100. -/
def mix32 (c : Cfg) (v : BitVec 32) : BitVec 32 := mixer c.mix32 v

/-- R101. -/
def mix64 (c : Cfg) (v : BitVec 64) : BitVec 64 := mixer c.mix64 v

/-- R104: what MIX32 writes to OUT0..OUT3; the operand is MIXL[31:0]. -/
def mix32Outs (c : Cfg) (operand : Word64) : Outs :=
  ⟨(mix32 c (lo32 operand)).setWidth 64, 0, 0, 0⟩

/-- R105: what MIX64 writes to OUT0..OUT3. -/
def mix64Outs (c : Cfg) (operand : Word64) : Outs := ⟨mix64 c operand, 0, 0, 0⟩

end Sys2Proof.Machine
end

