-- ==== Sys2Proof/Machine/Finalize.lean ====
section
/-! DEFINITION. The finalizer (44_finalize.md R140 to R144): cross-mix, fold mode, spread mode, and the output
registers. -/

namespace Sys2Proof.Machine

open Sys2Proof

/-- R141: eight assignments in order, each seeing the ones before it. -/
def crossMix (q : Quad n) : Quad n :=
  let fw1 := q.w + q.x
  let fy2 := q.y ^^^ q.z
  let fx3 := q.x - fy2
  let fz4 := q.z + fw1
  let fw5 := fw1 ^^^ fx3
  let fy6 := fy2 + fz4
  let fx7 := fx3 ^^^ fy6
  let fz8 := fz4 - fw5
  ⟨fw5, fx7, fy6, fz8⟩

/-- R142: fold mode, chained in the order w, x, y, z, combined by xor. -/
def foldLanes (mix : BitVec n → BitVec n) (q : Quad n) : BitVec n :=
  let m0 := mix q.w
  let m1 := mix (q.x + m0)
  let m2 := mix (q.y + m1)
  let m3 := mix (q.z + m2)
  m0 ^^^ m1 ^^^ m2 ^^^ m3

/-- R144, fold: `OUT0 <- zext_64(result)`, the others 0. -/
def foldOuts (mix : BitVec n → BitVec n) (q : Quad n) : Outs :=
  ⟨(foldLanes mix q).setWidth 64, 0, 0, 0⟩

/-- R143, R144, spread: each lane mixed independently, the most significant word in OUT0. -/
def spreadOuts (mix : BitVec n → BitVec n) (q : Quad n) : Outs :=
  ⟨(mix q.w).setWidth 64, (mix q.x).setWidth 64, (mix q.y).setWidth 64, (mix q.z).setWidth 64⟩

/-- R140 to R144: what the FINAL step writes to OUT0..OUT3. In hash256 the storage registers are the combined
64-bit values. -/
def finalOuts (c : Cfg) (v : Variant) (l : Lanes) : Outs :=
  match v with
  | .hash32 => foldOuts (mix32 c) (crossMix (l.quad 32))
  | .hash64 => foldOuts (mix64 c) (crossMix (l.quad 64))
  | .hash128 => spreadOuts (mix32 c) (crossMix (l.quad 32))
  | .hash256 => spreadOuts (mix64 c) (crossMix (l.quad 64))

end Sys2Proof.Machine
end

