-- ==== Sys2Proof/Machine/Flags.lean ====
section
/-! DEFINITION. The engine's only flags, the fields of STATUS (10_state.md R28). No lane operation sets a flag:
unsigned overflow is defined behaviour. -/

namespace Sys2Proof.Machine

open Sys2Proof

/-- R28, bit 0: BUSY is 1 iff PH is one of TERM, LOOP, TAIL, FINAL, MIXP. -/
def State.busy (s : State) : Bool :=
  match s.ph with
  | .term => true
  | .loop => true
  | .tail => true
  | .final => true
  | .mixp => true
  | .idle => false
  | .done => false

/-- R28, bit 1: DONE is 1 iff PH = DONE. -/
def State.isDone (s : State) : Bool :=
  match s.ph with
  | .done => true
  | .idle => false
  | .term => false
  | .loop => false
  | .tail => false
  | .final => false
  | .mixp => false

/-- R28: STATUS as the host reads it: bits 63:7 and bit 3 are 0, 6:4 ERRCODE, 2 ERR, 1 DONE, 0 BUSY. -/
def statusWord (s : State) : Word64 :=
  0#57 ++ s.errcode ++ 0#1 ++ BitVec.ofBool s.err ++ BitVec.ofBool s.isDone ++ BitVec.ofBool s.busy

/-- R28: `RegWrite(1, v)`: if `v[2] = 1` then ERR and ERRCODE are cleared; every other bit of `v` is ignored. -/
def statusWrite (v : Word64) (s : State) : State :=
  if v.getLsbD 2 then clearErr s else s

end Sys2Proof.Machine
end

