-- ==== Sys2Proof/Machine/Tail.lean ====
section
/-! DEFINITION. The tail handler's scratch fill and length injection (43_tail.md R131, R132). -/

namespace Sys2Proof.Machine

open Sys2Proof

/-- R131: all C bytes of T are written, the message bytes first and zeros after them; T[C..31] keep their values
(R23: a variant uses T[0..C-1] only). -/
def fillScratch (size : Nat) (bytes : List Byte) (t : Vector Byte 32) : Vector Byte 32 :=
  Vector.ofFn fun k => if k.val < size then bytes.getD k.val 0 else t[k]

/-- R133: the bytes T[0..C-1] the tail absorption reads. -/
def scratchChunk (size : Nat) (t : Vector Byte 32) : List Byte := t.toList.take size

/-- R132: the total length, xored into the carry lane: `w ^ lenW` in a uniform variant, and in hash256
`w0 ^ trunc_32(L)` and `w1 ^ trunc_32(shr(zext_64(L), 32))`. -/
def injectLength (v : Variant) (len : Addr) (l : Lanes) : Lanes :=
  match v with
  | .hash32 => { l with lw := (l.lw.setWidth 32 ^^^ atWidth 32 len).setWidth 64 }
  | .hash64 => { l with lw := l.lw ^^^ atWidth 64 len }
  | .hash128 => { l with lw := (l.lw.setWidth 32 ^^^ atWidth 32 len).setWidth 64 }
  | .hash256 =>
    { l with
      lw := cat32 (hi32 l.lw ^^^ (atWidth 64 len >>> 32).setWidth 32) (lo32 l.lw ^^^ atWidth 32 len) }

end Sys2Proof.Machine
end

