-- ==== Sys2Proof/Machine/Engine.lean ====
section
/-! DEFINITION. The engine's steps (45_commands.md R162 to R167). Every step reads the latches and never the host
registers (10_state.md R25). A step whose latches no accepted command can have left faults by name (U9, log 15). -/

namespace Sys2Proof.Machine

open Sys2Proof

/-- R134, R162: the state after the terminal pre-absorption of the window `ch`, absorbed at offset L - C. -/
def afterTerm (c : Cfg) (v : Variant) (s : State) (ch : List Byte) : State :=
  { s with
    lanes := permute (absorb c v s.lanes ch (s.lenl - BitVec.ofNat AW (chunkSize v)))
    ph := .loop }

/-- R119, R163: the state after one iteration of the loop; PH <- TAIL when I reaches n_full * C. -/
def afterLoop (c : Cfg) (v : Variant) (s : State) (ch : List Byte) : State :=
  { s with
    lanes := permute (absorb c v s.lanes ch s.i)
    i := s.i + BitVec.ofNat AW (chunkSize v)
    ph := if s.i.toNat + chunkSize v = nFull v s.lenl.toNat * chunkSize v then .tail else .loop }

/-- R131 to R133, R164: the state after the tail step: scratch fill, length injection, absorption of T without
permutation. -/
def afterTail (c : Cfg) (v : Variant) (s : State) (bytes : List Byte) : State :=
  { s with
    t := fillScratch (chunkSize v) bytes s.t
    lanes :=
      absorb c v (injectLength v s.lenl s.lanes)
        (scratchChunk (chunkSize v) (fillScratch (chunkSize v) bytes s.t)) s.i
    ph := .final }

/-- R144, R104, R105: the last step of a command writes OUT0..OUT3 at once and sets PH <- DONE. -/
def finish (o : Outs) (s : State) : State := { s with out := o, ph := .done }

/-- R134, R162: step TERM, for L > C. -/
def stepTerm (c : Cfg) (s : State) : Host.Outcome State Fault Refusal :=
  match variantOf s.opl with
  | none => .fault .deadState
  | some v =>
    if chunkSize v < s.lenl.toNat then withBytes s (termAddrs v s) (afterTerm c v s)
    else .fault .deadState

/-- R119, R163: step LOOP, one chunk of the n_full. -/
def stepLoop (c : Cfg) (s : State) : Host.Outcome State Fault Refusal :=
  match variantOf s.opl with
  | none => .fault .deadState
  | some v =>
    if s.i.toNat + chunkSize v ≤ nFull v s.lenl.toNat * chunkSize v then
      withBytes s (loopAddrs v s) (afterLoop c v s)
    else .fault .deadState

/-- R130, R164: step TAIL, at I = n_full * C. -/
def stepTail (c : Cfg) (s : State) : Host.Outcome State Fault Refusal :=
  match variantOf s.opl with
  | none => .fault .deadState
  | some v =>
    if s.i.toNat = nFull v s.lenl.toNat * chunkSize v then withBytes s (tailAddrs s) (afterTail c v s)
    else .fault .deadState

/-- R165: step FINAL; the finalizer reads the lanes and does not write them back (R20). -/
def stepFinal (c : Cfg) (s : State) : Host.Outcome State Fault Refusal :=
  match variantOf s.opl with
  | none => .fault .deadState
  | some v => .next (finish (finalOuts c v s.lanes) s)

/-- R166: step MIXP, R104 if OPL = 100, R105 if OPL = 101. -/
def stepMixp (c : Cfg) (s : State) : Host.Outcome State Fault Refusal :=
  if s.opl = 0b100 then .next (finish (mix32Outs c s.mixl) s)
  else if s.opl = 0b101 then .next (finish (mix64Outs c s.mixl) s)
  else .fault .deadState

/-- R159, R167: the engine's step; none is enabled when PH is IDLE or DONE, and then nothing changes. -/
def engineStep (c : Cfg) (s : State) : Host.Outcome State Fault Refusal :=
  match s.ph with
  | .idle => .next s
  | .term => stepTerm c s
  | .loop => stepLoop c s
  | .tail => stepTail c s
  | .final => stepFinal c s
  | .mixp => stepMixp c s
  | .done => .next s

end Sys2Proof.Machine
end

