-- ==== Sys2Proof/Machine/Issue.lean ====
section
/-! DEFINITION. Command issue (45_commands.md R160, R161): the checks in order, and acceptance. -/

namespace Sys2Proof.Machine

open Sys2Proof

/-- R160, R161: acceptance of a hash command: the latches, the seeds, I <- 0, and PH <- TERM if LENL > C else
TAIL. -/
def acceptHash (c : Cfg) (v : Variant) (s : State) : State :=
  { latch (encode (commandOf v)) s with
    lanes := seeds c v
    i := 0
    ph := if chunkSize v < s.len.toNat then .term else .tail }

/-- R160: acceptance of a mixer test command: the latches, and PH <- MIXP. -/
def acceptMix (i : Instr) (s : State) : State := { latch (encode i) s with ph := .mixp }

/-- R160, R186: issue of the command of a variant: BUSY_CMD first, then RANGE, else acceptance. "A model refuses" a
launch on memory with read side effects (R57, U8, log 8), and one that breaks R58 (a) as it is issued, by an address
of the window that does not answer (U6; DEDUCED, log 23). -/
def issueHash (c : Cfg) (v : Variant) (s : State) : Host.Outcome State Fault Refusal :=
  if s.busy then .next (refuse .busyCmd s)
  else if outOfRange s then .next (refuse .range s)
  else if windowHas .sideEffects s then .refused .sideEffectWindow
  else if windowHas .silent s then .refused .silentWindow
  else .next (acceptHash c v s)

/-- R160, R185: issue of a mixer test command; RANGE applies to hash commands only. -/
def issueMix (i : Instr) (s : State) : Host.Outcome State Fault Refusal :=
  if s.busy then .next (refuse .busyCmd s) else .next (acceptMix i s)

end Sys2Proof.Machine
end

