-- ==== Sys2Proof/Machine/Hash.lean ====
section
/-! DEFINITION. The meanings of the four hash commands (45_commands.md R170 to R173). exec is the issue (R160); the
command then runs by the engine's own steps (Machine/Engine.lean), which DONE ends. Log 14. -/

namespace Sys2Proof.Machine

open Sys2Proof

/-- R170: HASH32, W = 32, C = 16, constants V32 and MIX32, fold mode. -/
def execHash32 (s : State) : Host.Outcome State Fault Refusal := issueHash Config.cfg .hash32 s

/-- R171: HASH64, W = 64, C = 32, constants V64 and MIX64, fold mode. -/
def execHash64 (s : State) : Host.Outcome State Fault Refusal := issueHash Config.cfg .hash64 s

/-- R172: HASH128, W = 32, C = 16, constants V32 and MIX32, spread mode. -/
def execHash128 (s : State) : Host.Outcome State Fault Refusal := issueHash Config.cfg .hash128 s

/-- R173: HASH256, C = 32, w and x as pairs of 32-bit sub-registers, constants V256 and MIX64, spread mode. -/
def execHash256 (s : State) : Host.Outcome State Fault Refusal := issueHash Config.cfg .hash256 s

end Sys2Proof.Machine
end

