-- ==== Sys2Proof/Machine/MixTest.lean ====
section
/-! DEFINITION. The meanings of the two mixer test commands (41_mixer.md R104, R105). exec is the issue (R160); the
one step MIXP (Machine/Engine.lean) writes the result. Log 14. -/

namespace Sys2Proof.Machine

open Sys2Proof

/-- R104: MIX32. -/
def execMix32 (s : State) : Host.Outcome State Fault Refusal := issueMix .mix32 s

/-- R105: MIX64. -/
def execMix64 (s : State) : Host.Outcome State Fault Refusal := issueMix .mix64 s

end Sys2Proof.Machine
end

