-- ==== Sys2Proof/Machine/Dispatch.lean ====
section
/-! DEFINITION. One arm per command (30_encoding.md R71). -/

namespace Sys2Proof.Machine

open Sys2Proof

def exec (i : Instr) (s : State) : Host.Outcome State Fault Refusal :=
  match i with
  | .hash32 => Sys2Proof.Machine.execHash32 s
  | .hash64 => Sys2Proof.Machine.execHash64 s
  | .hash128 => Sys2Proof.Machine.execHash128 s
  | .hash256 => Sys2Proof.Machine.execHash256 s
  | .mix32 => Sys2Proof.Machine.execMix32 s
  | .mix64 => Sys2Proof.Machine.execMix64 s

end Sys2Proof.Machine
end

