-- ==== Sys2Proof/Machine/HostPort.lean ====
section
/-! DEFINITION. The host's accesses: the command write (45_commands.md R160, 30_encoding.md R73), the register map
(10_state.md R26 to R32), `wait` and the calls of 30_encoding.md R75 and R76, and the host's reads and writes of the
input space (45_commands.md R159). -/

namespace Sys2Proof.Machine

open Sys2Proof

/-- R27, R160, R186: `RegWrite(0, v)`: BUSY_CMD first, whatever v is, then ILLEGAL_CMD, else the command's own
meaning. -/
def commandWrite (v : Word64) (s : State) : Host.Outcome State Fault Refusal :=
  if s.busy then .next (refuse .busyCmd s)
  else
    match decode v with
    | .ok i => exec i s
    | .error _ => .next (refuse .illegalCmd s)

/-- R26, R28 to R32: a write of a register other than CMD. Writes of OUT0..OUT3 and of reserved numbers have no
effect. -/
def plainWrite (n : Nat) (v : Word64) (s : State) : State :=
  match n with
  | 1 => statusWrite v s
  | 2 => { s with base := v.setWidth AW }
  | 3 => { s with len := v.setWidth AW }
  | 4 => { s with mixin := v }
  | _ => s

/-- R26: `RegWrite(n, v)`. -/
def regWrite (n : Nat) (v : Word64) (s : State) : Host.Outcome State Fault Refusal :=
  if n = 0 then commandWrite v s else .next (plainWrite n v s)

/-- R31: a read of an output register: the result while DONE = 1, otherwise any value, a fresh draw. -/
def outRead (word : Word64) (s : State) : Word64 × State :=
  if s.isDone then (word, s) else (Config.freeWord s.draws, { s with draws := s.draws + 1 })

/-- R26 to R32: `RegRead(n)`: the value, and the state after it. Reserved numbers read 0. -/
def regRead (n : Nat) (s : State) : Word64 × State :=
  match n with
  | 0 => (s.lcmd, s)
  | 1 => (statusWord s, s)
  | 2 => (s.base.setWidth 64, s)
  | 3 => (s.len.setWidth 64, s)
  | 4 => (s.mixin, s)
  | 8 => outRead s.out.out0 s
  | 9 => outRead s.out.out1 s
  | 10 => outRead s.out.out2 s
  | 11 => outRead s.out.out3 s
  | _ => (0, s)

/-- The host's `RegRead(n)`: the value arrives in `rdata` (log 11). -/
def hostRead (n : Nat) (s : State) : State :=
  let (v, s') := regRead n s
  { s' with rdata := v }

/-- R75: `wait` reads STATUS until DONE = 1. Between two polls the engine takes a turn (R207: weak fairness, log
10). -/
def hostWait (s : State) : State :=
  if s.isDone then hostRead 1 s
  else { hostRead 1 s with agenda := .engine :: .host .wait :: s.agenda }

/-- R159: the host reads a byte of the input space. What an address that is not plain gives the host is not stated:
a free value (log 11). -/
def hostMemRead (a : Addr) (s : State) : State :=
  match kindAt s a.toNat with
  | .plain => { s with rdata := (memByte s.mem a.toNat).setWidth 64 }
  | .silent => { s with rdata := Config.freeWord s.draws, draws := s.draws + 1 }
  | .sideEffects => { s with rdata := Config.freeWord s.draws, draws := s.draws + 1 }

/-- R159: one host action. -/
def hostStep (a : HostAct) (s : State) : Host.Outcome State Fault Refusal :=
  match a with
  | .regRead n => .next (hostRead n s)
  | .regWrite n v => regWrite n v s
  | .wait => .next (hostWait s)
  | .memRead a => .next (hostMemRead a s)
  | .memWrite a b => .next (memSet a b s)
  | .setKind a k => .next (kindSet a k s)

/-- R76: `hashN(bytes, length)` is `wr BASE, bytes ; wr LEN, length ; HASHN ; wait ; rd OUT0 [; rd OUT1 ; ...]`, with
`words` output registers read. -/
def callHash (v : Variant) (bytes length : Addr) (words : Nat) : List Turn :=
  [.host (.regWrite 2 (bytes.setWidth 64)), .host (.regWrite 3 (length.setWidth 64)),
    .host (.regWrite 0 (encode (commandOf v))), .host .wait] ++
    (List.range words).map fun k => .host (.regRead (8 + k))

/-- R76: `mixN(v)` is `wr MIXIN, v ; MIXN ; wait ; rd OUT0`. -/
def callMix (i : Instr) (v : Word64) : List Turn :=
  [.host (.regWrite 4 v), .host (.regWrite 0 (encode i)), .host .wait, .host (.regRead 8)]

end Sys2Proof.Machine
end

