-- ==== Sys2Proof/Machine/Step.lean ====
section
/-! DEFINITION. One step of the machine (45_commands.md R159): the next turn of the agenda, or the engine's step when
no turn is left; and where a command word is placed for the next step. -/

namespace Sys2Proof.Machine

open Sys2Proof

/-- R159: the agenda says who acts next, so every interleaving of host and engine is a value of it (log 9). With
nothing on it the engine takes its enabled step, if it has one. -/
def step (s : State) : Host.Outcome State Fault Refusal :=
  match s.agenda with
  | [] => engineStep Config.cfg s
  | .engine :: rest => engineStep Config.cfg (setAgenda rest s)
  | .host a :: rest => hostStep a (setAgenda rest s)
  | .reset :: rest => .next (resetEvent (setAgenda rest s))

/-- The command word `w` placed where the next step takes it: as the host's next turn, `RegWrite(0, w)`. Nothing else
changes. Logs 12 and 18. -/
def State.withFetchWord (s : State) (nbits w : Nat) : State :=
  { s with agenda := .host (.regWrite 0 (BitVec.ofNat 64 (w % 2 ^ nbits))) :: s.agenda }

end Sys2Proof.Machine
end

