-- ==== Sys2Proof/Machine/Function.lean ====
section
/-! DEFINITION. The four hash commands as functions of the message (45_commands.md R170 to R173): what OUT0..OUT3 hold
when a command reaches DONE (R168). The engine's steps do not call these; the statements compare the two. -/

namespace Sys2Proof.Machine

open Sys2Proof

/-- R119: the chunk k of a message. -/
def msgChunk (v : Variant) (msg : List Byte) (k : Nat) : List Byte :=
  (msg.drop (k * chunkSize v)).take (chunkSize v)

/-- R161, R134: the seeds, and the terminal pre-absorption when L > C. -/
def lanesBeforeLoop (c : Cfg) (v : Variant) (msg : List Byte) : Lanes :=
  if chunkSize v < msg.length then
    permute (absorb c v (seeds c v) (msg.drop (msg.length - chunkSize v))
      (BitVec.ofNat AW (msg.length - chunkSize v)))
  else seeds c v

/-- R119: the lanes after the first `n` chunks of the loop. -/
def lanesAfterLoop (c : Cfg) (v : Variant) (msg : List Byte) : Nat → Lanes
  | 0 => lanesBeforeLoop c v msg
  | n + 1 =>
    permute (absorb c v (lanesAfterLoop c v msg n) (msgChunk v msg n) (BitVec.ofNat AW (n * chunkSize v)))

/-- R131: the message bytes from n_full * C on, padded with zeros to C bytes. -/
def paddedTail (v : Variant) (msg : List Byte) : List Byte :=
  let bytes := msg.drop (nFull v msg.length * chunkSize v)
  bytes ++ List.replicate (chunkSize v - bytes.length) 0

/-- R132, R133: the lanes after the tail step. -/
def lanesAfterTail (c : Cfg) (v : Variant) (msg : List Byte) : Lanes :=
  absorb c v
    (injectLength v (BitVec.ofNat AW msg.length) (lanesAfterLoop c v msg (nFull v msg.length)))
    (paddedTail v msg) (BitVec.ofNat AW (nFull v msg.length * chunkSize v))

/-- R170 to R173: OUT0..OUT3 as a function of the message. -/
def hashOuts (c : Cfg) (v : Variant) (msg : List Byte) : Outs := finalOuts c v (lanesAfterTail c v msg)

/-- R50: the message of the latched command, `msg[k] = Mem[BASEL + k]` for k below L. -/
def latchedMessage (s : State) : List Byte :=
  (addrsFrom s.basel.toNat s.lenl.toNat).map (memByte s.mem)

/-- R50, R72: the message the host registers name, `Mem[BASE] .. Mem[BASE + LEN - 1]`. -/
def namedMessage (s : State) : List Byte :=
  (addrsFrom s.base.toNat s.len.toNat).map (memByte s.mem)

/-- R167: the number of engine steps of a hash command, `[L > C] + n_full + 2`. -/
def hashSteps (v : Variant) (len : Nat) : Nat :=
  (if chunkSize v < len then 1 else 0) + nFull v len + 2

end Sys2Proof.Machine
end

