-- ==== Sys2Proof/Safety.lean ====
section
/-! DEFINITION. What the statements say about runs: the invariant of the machine, the window of the running command and
the host's duties towards it (20_memory.md R54, R57, R58; 70_reset_and_hazards.md R202), the reads and the remaining
steps of a run (R55, R207), and the live part of a state (10_state.md R22, R23, R35). -/

namespace Sys2Proof.Machine

open Sys2Proof

/-! ### Phases and windows -/

/-- PH is a phase of a hash command: TERM, LOOP, TAIL or FINAL (R160, R167). -/
def State.hashing (s : State) : Bool :=
  match s.ph with
  | .term => true
  | .loop => true
  | .tail => true
  | .final => true
  | .idle => false
  | .mixp => false
  | .done => false

/-- R54: `a` lies in the window [BASEL, BASEL + L) of the latched command. -/
abbrev inLatchedWindow (s : State) (a : Nat) : Prop :=
  s.basel.toNat ≤ a ∧ a < s.basel.toNat + s.lenl.toNat

/-- R58 (a), R57: every address of [lo, hi) answers the engine's reads, without side effects. -/
def answersOn (s : State) (lo hi : Nat) : Prop := ∀ a, lo ≤ a → a < hi → kindAt s a = .plain

/-- R58, R202: a turn that leaves the window [lo, hi) readable and unmodified, and does not reset the engine. -/
def keepsWindow (lo hi : Nat) : Turn → Bool
  | .engine => true
  | .reset => false
  | .host (.regRead _) => true
  | .host (.regWrite _ _) => true
  | .host .wait => true
  | .host (.memRead _) => true
  | .host (.memWrite a _) => a.toNat < lo || hi ≤ a.toNat
  | .host (.setKind a _) => a.toNat < lo || hi ≤ a.toNat

/-! ### The invariant -/

/-- R28: ERRCODE is 0 when ERR = 0, and one of the three codes of R181 when ERR = 1. -/
abbrev RefusalRecord (s : State) : Prop :=
  (s.err = false ∧ s.errcode = 0) ∨ (s.err = true ∧ (s.errcode = 1 ∨ s.errcode = 2 ∨ s.errcode = 3))

/-- What the latches and I hold in each phase of a hash command of variant `v` (R24, R50, R118, R160 to R164). -/
abbrev HashLatches (v : Variant) (s : State) : Prop :=
  s.basel.toNat + s.lenl.toNat ≤ 2 ^ AW ∧
  (s.ph = .term → chunkSize v < s.lenl.toNat ∧ s.i = 0) ∧
  (s.ph = .loop → chunkSize v < s.lenl.toNat ∧ s.i.toNat % chunkSize v = 0 ∧
    s.i.toNat + chunkSize v ≤ nFull v s.lenl.toNat * chunkSize v) ∧
  (s.ph = .tail → s.i.toNat = nFull v s.lenl.toNat * chunkSize v) ∧
  (s.ph = .final → s.i.toNat = nFull v s.lenl.toNat * chunkSize v)

/-- R21: bits 63:32 of each lane storage register are zero. -/
abbrev NarrowLanes (l : Lanes) : Prop :=
  hi32 l.lw = 0 ∧ hi32 l.lx = 0 ∧ hi32 l.ly = 0 ∧ hi32 l.lz = 0

/-- R144, R104: for W = 32 bits 63:32 of every output register are 0; outside spread mode OUT1..OUT3 are 0. The
latched opcode's bit 0 is WSEL, bit 1 SPREAD (R70). -/
abbrev OutsShape (s : State) : Prop :=
  (s.opl.getLsbD 0 = false →
    hi32 s.out.out0 = 0 ∧ hi32 s.out.out1 = 0 ∧ hi32 s.out.out2 = 0 ∧ hi32 s.out.out3 = 0) ∧
  (s.opl.getLsbD 1 = false → s.out.out1 = 0 ∧ s.out.out2 = 0 ∧ s.out.out3 = 0)

/-- The invariant every step keeps. -/
structure State.Inv (s : State) : Prop where
  /-- The input space is in canonical form. -/
  memory : Memory.wf s.mem
  /-- The table of address kinds is in canonical form. -/
  kinds : sparseWf AddrKind.plain s.kinds
  /-- R28, R181. -/
  refusalRecord : RefusalRecord s
  /-- R27, R73: LCMD is one of the six command words. -/
  command : s.lcmd.toNat < 6
  /-- R25: once a command was accepted OPL = LCMD[2:0]. -/
  opcode : s.ph ≠ .idle → s.opl = opField s.lcmd
  /-- R24, R160 to R164: a hash phase belongs to a hash command whose latches and offset fit it. -/
  hashLatches : s.hashing = true → ∃ v, variantOf s.opl = some v ∧ HashLatches v s
  /-- R166: MIXP belongs to a mixer test command. -/
  mixLatches : s.ph = .mixp → s.opl = 4 ∨ s.opl = 5
  /-- R21: in a W = 32 variant the upper halves of the storage registers are zero from issue on. -/
  narrowLanes : s.hashing = true → s.opl.getLsbD 0 = false → NarrowLanes s.lanes
  /-- R144. -/
  outsShape : s.ph = .done → OutsShape s

/-! ### Reads and progress of a run -/

/-- R55: the addresses read by the next `n` engine steps, in order. -/
def runAddrs (c : Cfg) : Nat → State → List Nat
  | 0, _ => []
  | n + 1, s =>
    match engineStep c s with
    | .next t => stepAddrs s ++ runAddrs c n t
    | .fault _ => []
    | .refused _ => []

/-- R167, R207: how many engine steps the running command still takes. -/
def remainingSteps (s : State) : Nat :=
  match variantOf s.opl with
  | none =>
    match s.ph with
    | .mixp => 1
    | .idle => 0
    | .term => 0
    | .loop => 0
    | .tail => 0
    | .final => 0
    | .done => 0
  | some v =>
    match s.ph with
    | .term => nFull v s.lenl.toNat + 3
    | .loop => nFull v s.lenl.toNat - s.i.toNat / chunkSize v + 2
    | .tail => 2
    | .final => 1
    | .idle => 0
    | .mixp => 0
    | .done => 0

/-- One output word by number, 0 to 3 (R31). -/
def Outs.word (o : Outs) : Nat → Word64
  | 0 => o.out0
  | 1 => o.out1
  | 2 => o.out2
  | _ => o.out3

/-! ### The live part of a state -/

/-- R22, R23, R35: two states that agree on all but elements that are dead: the lanes and I outside a hash command, T
everywhere, the latches but LCMD when no command runs, and OUT0..OUT3 while DONE = 0. -/
structure AgreeLive (s u : State) : Prop where
  ph : s.ph = u.ph
  lcmd : s.lcmd = u.lcmd
  base : s.base = u.base
  len : s.len = u.len
  mixin : s.mixin = u.mixin
  err : s.err = u.err
  errcode : s.errcode = u.errcode
  mem : s.mem = u.mem
  kinds : s.kinds = u.kinds
  agenda : s.agenda = u.agenda
  rdata : s.rdata = u.rdata
  draws : s.draws = u.draws
  opl : s.busy = true → s.opl = u.opl
  window : s.hashing = true → s.basel = u.basel ∧ s.lenl = u.lenl
  lanes : s.hashing = true → s.lanes = u.lanes ∧ s.i = u.i
  mixl : s.ph = .mixp → s.mixl = u.mixl
  out : s.ph = .done → s.out = u.out

/-- Two outcomes that agree on the live part of the state, or stop for the same reason. -/
def SameOutcome : Host.Outcome State Fault Refusal → Host.Outcome State Fault Refusal → Prop
  | .next s, .next u => AgreeLive s u
  | .fault r, .fault r' => r = r'
  | .refused r, .refused r' => r = r'
  | .next _, .fault _ => False
  | .next _, .refused _ => False
  | .fault _, .next _ => False
  | .fault _, .refused _ => False
  | .refused _, .next _ => False
  | .refused _, .fault _ => False

end Sys2Proof.Machine
end

