-- ==== Sys2Proof/Certificates/Slice0/Obligations.lean ====
section
/-! DEFINITION. The statements for the provers. Each docstring names the rule of spec/ it formalises, or says that it
rests on a choice of the model and names the log entry. -/

open Sys2Proof Sys2Proof.Machine

/-! ### Encoding -/

/-- R70, R71: words written out from the bits of the format, TEST SPREAD WSEL last, decode to the command of the opcode
map, and the reserved ones to no command. -/
def Obligations.OpcodeMapWordsDecode : Prop :=
  decode (0#61 ++ 0b000#3) = .ok .hash32 ∧ decode (0#61 ++ 0b001#3) = .ok .hash64 ∧
  decode (0#61 ++ 0b010#3) = .ok .hash128 ∧ decode (0#61 ++ 0b011#3) = .ok .hash256 ∧
  decode (0#61 ++ 0b100#3) = .ok .mix32 ∧ decode (0#61 ++ 0b101#3) = .ok .mix64 ∧
  decode (0#61 ++ 0b110#3) = .error .reservedOp ∧ decode (0#61 ++ 0b111#3) = .error .reservedOp ∧
  decode (1#61 ++ 0b000#3) = .error .zeroFieldSet

/-- R71, R73: a 64-bit word decodes to a command exactly when it is that command's word. -/
def Obligations.DecodeInvertsEncodeBothWays : Prop :=
  ∀ (v : Word64) (i : Instr), decode v = .ok i ↔ v = encode i

/-- R73, R182: with BUSY = 0 an illegal word (and only an illegal word is no command) is refused with code 1: nothing
changes but ERR and ERRCODE, and those only when ERR was 0. -/
def Obligations.IllegalWordsAreRefused : Prop :=
  ∀ (v : Word64),
    ((v.extractLsb' 3 61 ≠ 0 ∨ v.extractLsb' 0 3 = 6 ∨ v.extractLsb' 0 3 = 7) ↔ ∀ i, decode v ≠ .ok i) ∧
    ∀ (s : State), s.busy = false → (∀ i, decode v ≠ .ok i) →
      regWrite 0 v s =
        .next { s with err := true, errcode := if s.err then s.errcode else 1 }

/-! ### Words -/

/-- R6: a rotation left by 0 < r < N moves bit k - r to bit k, around the word, and a rotation right is the opposite. -/
def Obligations.RotationsMoveBitsAround : Prop :=
  ∀ (n r k : Nat) (a : BitVec n), 0 < r → r < n → k < n →
    (rotl a r).getLsbD k = a.getLsbD ((k + (n - r)) % n) ∧
    (rotr a r).getLsbD k = a.getLsbD ((k + r) % n)

/-- R90, R92: byte k of a fetched value is the byte at offset off + k, for the four widths of the contract, whatever the
offset. -/
def Obligations.FetchIsLittleEndian : Prop :=
  ∀ (buf : List Byte) (off width k : Nat) (_ : width = 8 ∨ width = 16 ∨ width = 32 ∨ width = 64)
    (h : off + width / 8 ≤ buf.length) (hk : k < width / 8),
    (fetch buf off width).extractLsb' (8 * k) 8 = buf[off + k]'(by omega)

/-- R51: the 64-bit fetch is the two 32-bit fetches, the higher offset in the high half. -/
def Obligations.WideFetchIsTwoNarrowFetches : Prop :=
  ∀ (buf : List Byte) (off : Nat), off + 8 ≤ buf.length →
    fetch buf off 64 = cat32 (fetch buf (off + 4) 32) (fetch buf off 32)

/-! ### The mixer -/

/-- R100, R101: the five steps of the mixer, with the shifts and rotations of a well-formed `CFG`, and the example of
each rule under `REF`, v1 to v5 of the input 1. -/
def Obligations.MixerFiveSteps : Prop :=
  (∀ (c : Cfg), c.wellFormed = true → ∀ (v : BitVec 32),
    ∃ v1 v2 v3 v4 : BitVec 32,
      v1 = v * c.mix32.k1 ∧ v2 = v1 ^^^ v1.rotateRight c.mix32.s1 ∧
      v3 = v2 + c.mix32.k2 * (v2 >>> c.mix32.s2) ∧ v4 = v3 * v3.rotateLeft c.mix32.s3 ∧
      mix32 c v = v4 ^^^ ((v4 <<< c.mix32.s4) * c.mix32.k3)) ∧
  (∀ (c : Cfg), c.wellFormed = true → ∀ (v : BitVec 64),
    ∃ v1 v2 v3 v4 : BitVec 64,
      v1 = v * c.mix64.k1 ∧ v2 = v1 ^^^ v1.rotateRight c.mix64.s1 ∧
      v3 = v2 + c.mix64.k2 * (v2 >>> c.mix64.s2) ∧ v4 = v3 * v3.rotateLeft c.mix64.s3 ∧
      mix64 c v = v4 ^^^ ((v4 <<< c.mix64.s4) * c.mix64.k3)) ∧
  (1#32 * Cfg.ref.mix32.k1 = 0x85EBCA6B#32 ∧
    0x85EBCA6B#32 ^^^ (0x85EBCA6B#32).rotateRight Cfg.ref.mix32.s1 = 0x113CC1BC#32 ∧
    0x113CC1BC#32 + Cfg.ref.mix32.k2 * (0x113CC1BC#32 >>> Cfg.ref.mix32.s2) = 0x9CFFA25A#32 ∧
    0x9CFFA25A#32 * (0x9CFFA25A#32).rotateLeft Cfg.ref.mix32.s3 = 0xB9720736#32 ∧
    mix32 Cfg.ref 1#32 = 0x1B807236#32) ∧
  (1#64 * Cfg.ref.mix64.k1 = 0xFF51AFD7ED558CCD#64 ∧
    0xFF51AFD7ED558CCD#64 ^^^ (0xFF51AFD7ED558CCD#64).rotateRight Cfg.ref.mix64.s1 = 0x95FDC9B817D8F272#64 ∧
    0x95FDC9B817D8F272#64 + Cfg.ref.mix64.k2 * (0x95FDC9B817D8F272#64 >>> Cfg.ref.mix64.s2) = 0x102C24152BAEF91A#64 ∧
    0x102C24152BAEF91A#64 * (0x102C24152BAEF91A#64).rotateLeft Cfg.ref.mix64.s3 = 0xD40496813685BFD4#64 ∧
    mix64 Cfg.ref 1#64 = 0x141754D7EE4DBFD4#64)

/-- R102 (a), R142: the mixer maps 0 to 0 for every `CFG`, so all-zero lanes fold to 0. -/
def Obligations.MixerAndFoldOfZero : Prop :=
  ∀ (c : Cfg), mix32 c 0 = 0 ∧ mix64 c 0 = 0 ∧
    foldLanes (mix32 c) ⟨0, 0, 0, 0⟩ = 0 ∧ foldLanes (mix64 c) ⟨0, 0, 0, 0⟩ = 0

/-! ### Absorption -/

/-- R110 to R112: the uniform absorption step at any width, its fetch offsets and its four assignments in order; the
constants, the width and the offset term of each uniform variant; and the examples of R111 under `REF`. -/
def Obligations.UniformAbsorptionStep : Prop :=
  (∀ (n : Nat) (u : UniformConst n) (q : Quad n) (ch : List Byte) (t : BitVec n),
    let r := absorbUniform u q ch t
    r.w = ((q.w ^^^ rotl (fetch ch 0 n) u.r0) * u.p0) + (q.x ^^^ t) ∧
    r.x = ((q.x ^^^ rotl (fetch ch (n / 8) n) u.r1) * u.p1) + (q.y ^^^ t) + r.w ∧
    r.y = ((q.y ^^^ rotl (fetch ch (2 * (n / 8)) n) u.r2) * u.p2) + (q.z ^^^ t) + r.x ∧
    r.z = ((q.z ^^^ rotl (fetch ch (3 * (n / 8)) n) u.r3) * u.p3) + (r.w ^^^ t) + r.y) ∧
  (∀ (c : Cfg) (l : Lanes) (ch : List Byte) (i : Addr),
    absorb c .hash32 l ch i = (absorbUniform c.v32 (l.quad 32) ch (i.setWidth 32)).lanes ∧
    absorb c .hash128 l ch i = (absorbUniform c.v32 (l.quad 32) ch (i.setWidth 32)).lanes ∧
    absorb c .hash64 l ch i = (absorbUniform c.v64 (l.quad 64) ch (i.setWidth 64)).lanes) ∧
  absorb Cfg.ref .hash32 ⟨0x243F6A88, 0x85A308D3, 0x13198A2E, 0x03707344⟩ (List.replicate 16 0) 0 =
    ⟨0x620DF8DB, 0xF1981B1E, 0xCE05BF58, 0xDBD84DAF⟩ ∧
  absorb Cfg.ref .hash32 ⟨0, 0, 0, 0⟩ (List.replicate 16 0) 0 = ⟨0, 0, 0, 0⟩ ∧
  absorb Cfg.ref .hash32 ⟨0, 0, 0, 0⟩ (List.replicate 16 0) 0x10 = ⟨0x10, 0x20, 0x30, 0x30⟩ ∧
  absorb Cfg.ref .hash32 ⟨0x243F6A8D, 0x85A308D3, 0x13198A2E, 0x03707344⟩
    ([0x68, 0x65, 0x6C, 0x6C, 0x6F] ++ List.replicate 11 0) 0 = ⟨0xB0BB7853, 0xAB20F296, 0x878E96D0, 0xE40EA49F⟩

/-- R114 to R116: the double-width step, read through the halves of the storage registers: each sub-register of its
own 32-bit arithmetic with no carry from sub-register 0 into 1, and y and z of 64-bit arithmetic; and the example of
R116 under `REF`. -/
def Obligations.DoubleWidthAbsorptionStep : Prop :=
  (∀ (c : Cfg) (l : Lanes) (ch : List Byte) (i : Addr),
    let k := c.v256
    let r := absorb c .hash256 l ch i
    lo32 r.lw = ((lo32 l.lw ^^^ rotl (fetch ch 0 32) k.r0) * k.q0) + (lo32 l.lx ^^^ i.setWidth 32) ∧
    hi32 r.lw = ((hi32 l.lw ^^^ rotl (fetch ch 4 32) k.r0) * k.q1) + (hi32 l.lx ^^^ i.setWidth 32) + lo32 r.lw ∧
    lo32 r.lx = ((lo32 l.lx ^^^ rotl (fetch ch 8 32) k.r1) * k.q2) + (lo32 l.ly ^^^ i.setWidth 32) + hi32 r.lw ∧
    hi32 r.lx = ((hi32 l.lx ^^^ rotl (fetch ch 12 32) k.r1) * k.q3) + (hi32 l.ly ^^^ i.setWidth 32) + lo32 r.lx ∧
    r.ly = ((l.ly ^^^ rotl (fetch ch 16 64) k.r2) * k.q4) + (l.lz ^^^ i.setWidth 64) + r.lx ∧
    r.lz = ((l.lz ^^^ rotl (fetch ch 24 64) k.r3) * k.q5) + (r.lw ^^^ i.setWidth 64) + r.ly) ∧
  absorb Cfg.ref .hash256 (seeds Cfg.ref .hash256) (List.replicate 32 0) 0 =
    ⟨0xEF6532ECDBFB60D5, 0x132C2897D1813B14, 0x05D18E3E3FEA1C12, 0xE2964207A1782420⟩

/-- R113, R117: x takes the old z, y the old x, z the old y, w stays, and three permutations are the identity. -/
def Obligations.PermutationIsThreeCycle : Prop :=
  ∀ (l : Lanes), (permute l).lw = l.lw ∧ (permute l).lx = l.lz ∧ (permute l).ly = l.lx ∧ (permute l).lz = l.ly ∧
    permute (permute (permute l)) = l

/-- R118: the loop count, and what is left for the tail handler. -/
def Obligations.LoopCountLeavesOneToCBytes : Prop :=
  ∀ (v : Variant) (len k : Nat),
    nFull v 0 = 0 ∧ (1 ≤ len → nFull v len = (len - 1) / chunkSize v) ∧
    (len ≤ chunkSize v → nFull v len = 0) ∧
    (1 ≤ k → nFull v (k * chunkSize v) = k - 1) ∧
    (1 ≤ len → 1 ≤ len - nFull v len * chunkSize v ∧ len - nFull v len * chunkSize v ≤ chunkSize v) ∧
    0 - nFull v 0 * chunkSize v = 0

/-- R131: the fill writes all C bytes, the message bytes and then zeros, so nothing of an earlier T survives in
T[0..C-1]; R23: T[C..31] is not touched. -/
def Obligations.ScratchFillPadsWithZeros : Prop :=
  ∀ (v : Variant) (bytes : List Byte) (t : Vector Byte 32), bytes.length ≤ chunkSize v →
    scratchChunk (chunkSize v) (fillScratch (chunkSize v) bytes t) =
      bytes ++ List.replicate (chunkSize v - bytes.length) 0 ∧
    ∀ (k : Nat) (h : k < 32), chunkSize v ≤ k → (fillScratch (chunkSize v) bytes t)[k] = t[k]

/-- R132: the length is xored into the carry lane: into w at the lane width in a uniform variant, and in hash256 the two
halves together are `LW ^ zext_64(L)`; the other lanes keep their values. -/
def Obligations.LengthInjectionIntoCarryLane : Prop :=
  ∀ (len : Addr) (l : Lanes),
    (∀ v, v = .hash32 ∨ v = .hash128 →
      ((injectLength v len l).lw).setWidth 32 = l.lw.setWidth 32 ^^^ len.setWidth 32) ∧
    (injectLength .hash64 len l).lw = l.lw ^^^ len.setWidth 64 ∧
    (injectLength .hash256 len l).lw = l.lw ^^^ len.setWidth 64 ∧
    ∀ v, (injectLength v len l).lx = l.lx ∧ (injectLength v len l).ly = l.ly ∧ (injectLength v len l).lz = l.lz

/-! ### The finalizer -/

/-- R141: the eight assignments of the cross-mix, its corner cases at any width, and its example. -/
def Obligations.CrossMixEightSteps : Prop :=
  ∀ (n : Nat) (q : Quad n),
    (∃ fw1 fy2 fx3 fz4 : BitVec n,
      fw1 = q.w + q.x ∧ fy2 = q.y ^^^ q.z ∧ fx3 = q.x - fy2 ∧ fz4 = q.z + fw1 ∧
      (crossMix q).w = fw1 ^^^ fx3 ∧ (crossMix q).y = fy2 + fz4 ∧
      (crossMix q).x = fx3 ^^^ (crossMix q).y ∧ (crossMix q).z = fz4 - (crossMix q).w) ∧
    crossMix (⟨0, 0, 0, 0⟩ : Quad n) = ⟨0, 0, 0, 0⟩ ∧
    crossMix (⟨1, 0, 0, 0⟩ : Quad n) = ⟨1, 1, 1, 0⟩ ∧
    crossMix (⟨0xB0BB7853, 0xAB20F296, 0x878E96D0, 0xE40EA49F⟩ : Quad 32) =
      ⟨0x1C7CAAAE, 0xE4CB8190, 0xA36B41D7, 0x236E64DA⟩

/-- R142, R143 (and the assembly of R144): what each variant puts in OUT0..OUT3 from its cross-mixed lanes, for every
`CFG`; all-zero lanes fold to 0; and the examples of R142 and R143 under `REF`. -/
def Obligations.FoldAndSpreadAssembly : Prop :=
  (∀ (c : Cfg) (l : Lanes),
    (let q := crossMix (l.quad 32)
     (let m0 := mix32 c q.w
      let m1 := mix32 c (q.x + m0)
      let m2 := mix32 c (q.y + m1)
      let m3 := mix32 c (q.z + m2)
      finalOuts c .hash32 l = ⟨(m0 ^^^ m1 ^^^ m2 ^^^ m3).setWidth 64, 0, 0, 0⟩) ∧
     finalOuts c .hash128 l =
      ⟨(mix32 c q.w).setWidth 64, (mix32 c q.x).setWidth 64, (mix32 c q.y).setWidth 64, (mix32 c q.z).setWidth 64⟩) ∧
    (let q := crossMix ⟨l.lw, l.lx, l.ly, l.lz⟩
     (let m0 := mix64 c q.w
      let m1 := mix64 c (q.x + m0)
      let m2 := mix64 c (q.y + m1)
      let m3 := mix64 c (q.z + m2)
      finalOuts c .hash64 l = ⟨m0 ^^^ m1 ^^^ m2 ^^^ m3, 0, 0, 0⟩) ∧
     finalOuts c .hash256 l = ⟨mix64 c q.w, mix64 c q.x, mix64 c q.y, mix64 c q.z⟩) ∧
    finalOuts c .hash32 ⟨0, 0, 0, 0⟩ = ⟨0, 0, 0, 0⟩ ∧ finalOuts c .hash64 ⟨0, 0, 0, 0⟩ = ⟨0, 0, 0, 0⟩) ∧
  finalOuts Cfg.ref .hash32 ⟨0xB0BB7853, 0xAB20F296, 0x878E96D0, 0xE40EA49F⟩ = ⟨0xFEEBDFD6, 0, 0, 0⟩ ∧
  finalOuts Cfg.ref .hash128 ⟨0xB0BB7853, 0xAB20F296, 0x878E96D0, 0xE40EA49F⟩ =
    ⟨0x784EF6AE, 0xC4642EAA, 0x5FC183E4, 0x00FE746B⟩

/-- R172: HASH128's lanes before the cross-mix are HASH32's for the same message, so OUT0 of HASH128 is the first value
m0 of HASH32's fold chain. -/
def Obligations.Hash128SharesAbsorptionWithHash32 : Prop :=
  ∀ (c : Cfg) (msg : List Byte),
    lanesAfterTail c .hash128 msg = lanesAfterTail c .hash32 msg ∧
    (hashOuts c .hash128 msg).out0 =
      (mix32 c (crossMix ((lanesAfterTail c .hash32 msg).quad 32)).w).setWidth 64

/-! ### Issue -/

/-- R160, R161: acceptance of a hash command from IDLE or DONE. The whole next state: the latches, the seeds, I, PH,
and OUT0..OUT3 unspecified (four free values, log 4). Everything else is unchanged: BASE, LEN, MIXIN, ERR, ERRCODE, T
and all of memory. The premises on the kinds of the window's addresses are the model's launch refusals (logs 8, 23). -/
def Obligations.HashCommandsAreAccepted : Prop :=
  ∀ (s : State) (v : Variant), s.busy = false → s.base.toNat + s.len.toNat ≤ 2 ^ AW →
    windowHas .sideEffects s = false → windowHas .silent s = false →
    exec (commandOf v) s =
      .next { s with
        lcmd := encode (commandOf v)
        opl := (encode (commandOf v)).extractLsb' 0 3
        basel := s.base
        lenl := s.len
        mixl := s.mixin
        i := 0
        lanes :=
          match v with
          | .hash32 => ⟨Config.cfg.v32.seed0.setWidth 64, Config.cfg.v32.seed1.setWidth 64,
              Config.cfg.v32.seed2.setWidth 64, Config.cfg.v32.seed3.setWidth 64⟩
          | .hash64 => ⟨Config.cfg.v64.seed0, Config.cfg.v64.seed1, Config.cfg.v64.seed2, Config.cfg.v64.seed3⟩
          | .hash128 => ⟨Config.cfg.v32.seed0.setWidth 64, Config.cfg.v32.seed1.setWidth 64,
              Config.cfg.v32.seed2.setWidth 64, Config.cfg.v32.seed3.setWidth 64⟩
          | .hash256 => ⟨Config.cfg.v256.seed1 ++ Config.cfg.v256.seed0, Config.cfg.v256.seed3 ++ Config.cfg.v256.seed2,
              Config.cfg.v256.seed4, Config.cfg.v256.seed5⟩
        out := ⟨Config.freeWord s.draws, Config.freeWord (s.draws + 1), Config.freeWord (s.draws + 2),
          Config.freeWord (s.draws + 3)⟩
        draws := s.draws + 4
        ph := if chunkSize v < s.len.toNat then .term else .tail }

/-- R160, R185: acceptance of MIX32 and MIX64 from IDLE or DONE, whatever BASE and LEN hold. The whole next state. -/
def Obligations.MixCommandsAreAccepted : Prop :=
  ∀ (s : State) (i : Instr), i = .mix32 ∨ i = .mix64 → s.busy = false →
    exec i s =
      .next { s with
        lcmd := encode i
        opl := (encode i).extractLsb' 0 3
        basel := s.base
        lenl := s.len
        mixl := s.mixin
        out := ⟨Config.freeWord s.draws, Config.freeWord (s.draws + 1), Config.freeWord (s.draws + 2),
          Config.freeWord (s.draws + 3)⟩
        draws := s.draws + 4
        ph := .mixp }

/-- R183, R184, R186: a command write while BUSY = 1 is refused with code 2 whatever the word is, and so is every
command; nothing changes but ERR and ERRCODE. Writes of the other registers are not refused: each is `plainWrite`. -/
def Obligations.BusyEngineRefusesEveryCommand : Prop :=
  ∀ (s : State), s.busy = true →
    (∀ (v : Word64), regWrite 0 v s =
      .next { s with err := true, errcode := if s.err then s.errcode else 2 }) ∧
    (∀ (i : Instr), exec i s = .next { s with err := true, errcode := if s.err then s.errcode else 2 }) ∧
    (∀ (n : Nat) (v : Word64), n ≠ 0 → regWrite n v s = .next (plainWrite n v s))

/-- R185: RANGE. A hash command with BASE + LEN > 2^AW and BUSY = 0 is refused with code 3; LEN = 0 and BASE + LEN =
2^AW are in range; MIX32 and MIX64 are never refused for RANGE. -/
def Obligations.RangeRefusesHashCommandsOnly : Prop :=
  (∀ (s : State) (v : Variant), s.busy = false → 2 ^ AW < s.base.toNat + s.len.toNat →
    exec (commandOf v) s = .next { s with err := true, errcode := if s.err then s.errcode else 3 }) ∧
  (∀ (s : State) (v : Variant), s.busy = false → s.Inv → answersOn s s.base.toNat (s.base.toNat + s.len.toNat) →
    s.len = 0 ∨ s.base.toNat + s.len.toNat = 2 ^ AW →
    ∃ t, exec (commandOf v) s = .next t ∧ t.busy = true ∧ t.lcmd = encode (commandOf v) ∧ t.err = s.err) ∧
  (∀ (s : State) (i : Instr), i = .mix32 ∨ i = .mix64 → s.busy = false →
    ∃ t, exec i s = .next t ∧ t.ph = .mixp ∧ t.err = s.err ∧ t.errcode = s.errcode)

/-- R57, 93_implementation_defined.md U8: the model refuses, by name, the launch of a hash command whose window holds an
address with read side effects. The form of the refusal is the model's (log 8). -/
def Obligations.SideEffectWindowLaunchRefused : Prop :=
  ∀ (s : State) (v : Variant) (a : Nat), s.Inv → s.busy = false → s.base.toNat + s.len.toNat ≤ 2 ^ AW →
    s.base.toNat ≤ a → a < s.base.toNat + s.len.toNat → kindAt s a = .sideEffects →
    exec (commandOf v) s = .refused .sideEffectWindow

/-- R189 (and the write of R28): a write of 1 to STATUS bit 2 clears ERR and ERRCODE and nothing else; with bit 2
clear nothing changes; a refusal while ERR is set leaves no trace; a set ERR does not keep a command from being
accepted. -/
def Obligations.StatusWriteClearsRefusalRecord : Prop :=
  (∀ (s : State) (v : Word64), v.getLsbD 2 = true → regWrite 1 v s = .next { s with err := false, errcode := 0 }) ∧
  (∀ (s : State) (v : Word64), v.getLsbD 2 = false → regWrite 1 v s = .next s) ∧
  (∀ (s : State) (r : RefusalCode), s.err = true → refuse r s = s) ∧
  (∀ (s : State) (i : Instr) (t : State), s.busy = false → s.err = false → exec i s = .next t → t.busy = true →
    ∀ (code : BitVec 3), exec i { s with err := true, errcode := code } = .next { t with err := true, errcode := code })

/-! ### Registers -/

/-- R28: a read of STATUS gives the status word and changes nothing; its bits; and the three values of BUSY and
DONE. -/
def Obligations.StatusBits : Prop :=
  ∀ (s : State), regRead 1 s = (statusWord s, s) ∧
    (statusWord s).getLsbD 0 = s.busy ∧ (statusWord s).getLsbD 1 = s.isDone ∧
    (statusWord s).getLsbD 2 = s.err ∧ (statusWord s).getLsbD 3 = false ∧
    (statusWord s).extractLsb' 4 3 = s.errcode ∧ (statusWord s).extractLsb' 7 57 = 0 ∧
    (s.busy = true ↔ s.ph = .term ∨ s.ph = .loop ∨ s.ph = .tail ∨ s.ph = .final ∨ s.ph = .mixp) ∧
    (s.isDone = true ↔ s.ph = .done) ∧ (s.busy = false ∧ s.isDone = false ↔ s.ph = .idle)

/-- R29, R30, R32: BASE and LEN keep bits AW-1:0 of the data and read zero-extended, MIXIN keeps all of it, and a
reserved number reads 0 and ignores writes; at any time, in any phase. -/
def Obligations.OperandRegistersReadBack : Prop :=
  ∀ (s : State) (v : Word64),
    (∃ t, regWrite 2 v s = .next t ∧ t = { s with base := v.setWidth AW } ∧
      regRead 2 t = ((v.setWidth AW).setWidth 64, t)) ∧
    (∃ t, regWrite 3 v s = .next t ∧ t = { s with len := v.setWidth AW } ∧
      regRead 3 t = ((v.setWidth AW).setWidth 64, t)) ∧
    (∃ t, regWrite 4 v s = .next t ∧ t = { s with mixin := v } ∧ regRead 4 t = (v, t)) ∧
    (∀ n, n = 5 ∨ n = 6 ∨ n = 7 ∨ 12 ≤ n → regWrite n v s = .next s ∧ regRead n s = (0, s))

/-- R27: the write of CMD stores the word only when the command is accepted (PH leaves IDLE or DONE); otherwise LCMD
keeps its value; a read returns LCMD. -/
def Obligations.CommandRegisterReadsLastAccepted : Prop :=
  ∀ (s t : State) (v : Word64), regWrite 0 v s = .next t →
    (s.busy = false ∧ t.busy = true → regRead 0 t = (v, t)) ∧
    (¬ (s.busy = false ∧ t.busy = true) → regRead 0 t = (s.lcmd, t))

/-- R31: OUT0..OUT3 ignore writes; they read as the result while DONE = 1, and otherwise as any value, a fresh draw at
each read (a free value, log 4). -/
def Obligations.OutputRegistersReadOnlyWhenDone : Prop :=
  ∀ (s : State) (k : Nat), k < 4 →
    (∀ v, regWrite (8 + k) v s = .next s) ∧
    (s.isDone = true → regRead (8 + k) s = (s.out.word k, s)) ∧
    (s.isDone = false → regRead (8 + k) s = (Config.freeWord s.draws, { s with draws := s.draws + 1 }))

/-- R22: no register read returns a lane, T, I or a latch other than LCMD, in any phase: changing them changes no
value read. -/
def Obligations.LanesAreInvisibleToTheHost : Prop :=
  ∀ (s : State) (n : Nat) (l : Lanes) (b : Vector Byte 32) (i basel lenl : Addr) (opl : BitVec 3) (mixl : Word64),
    (regRead n { s with lanes := l, t := b, i := i, basel := basel, lenl := lenl, opl := opl, mixl := mixl }).1 =
      (regRead n s).1

/-! ### The engine's steps -/

/-- R134, R162: the TERM step, the whole next state. -/
def Obligations.TermStepAbsorbsTrailingChunk : Prop :=
  ∀ (c : Cfg) (s : State) (v : Variant), s.Inv → s.ph = .term → variantOf s.opl = some v →
    answersOn s s.basel.toNat (s.basel.toNat + s.lenl.toNat) →
    ∃ ch : List Byte, ch = (List.range (chunkSize v)).map
        (fun k => memByte s.mem (s.basel.toNat + s.lenl.toNat - chunkSize v + k)) ∧
      engineStep c s = .next { s with
        lanes := permute (absorb c v s.lanes ch (BitVec.ofNat AW (s.lenl.toNat - chunkSize v)))
        ph := .loop }

/-- R119, R163: a LOOP step, the whole next state; PH <- TAIL exactly when I reaches n_full * C. -/
def Obligations.LoopStepAbsorbsOneChunk : Prop :=
  ∀ (c : Cfg) (s : State) (v : Variant), s.Inv → s.ph = .loop → variantOf s.opl = some v →
    answersOn s s.basel.toNat (s.basel.toNat + s.lenl.toNat) →
    ∃ (ch : List Byte) (t : State), ch = (List.range (chunkSize v)).map
        (fun k => memByte s.mem (s.basel.toNat + s.i.toNat + k)) ∧
      engineStep c s = .next t ∧
      t = { s with
        lanes := permute (absorb c v s.lanes ch s.i)
        i := t.i
        ph := if t.i.toNat = nFull v s.lenl.toNat * chunkSize v then .tail else .loop } ∧
      t.i.toNat = s.i.toNat + chunkSize v

/-- R130 to R133, R164: the TAIL step, the whole next state: the fill of T[0..C-1] with the rem remaining bytes and
zeros, T[C..31] as before, the length injection, and the absorption of T[0..C-1] with no permutation. -/
def Obligations.TailStepAbsorbsPaddedRest : Prop :=
  ∀ (c : Cfg) (s : State) (v : Variant), s.Inv → s.ph = .tail → variantOf s.opl = some v →
    answersOn s s.basel.toNat (s.basel.toNat + s.lenl.toNat) →
    ∃ (bytes : List Byte) (b : Vector Byte 32),
      bytes = (List.range (s.lenl.toNat - nFull v s.lenl.toNat * chunkSize v)).map
        (fun k => memByte s.mem (s.basel.toNat + nFull v s.lenl.toNat * chunkSize v + k)) ∧
      b.toList.take (chunkSize v) = bytes ++ List.replicate (chunkSize v - bytes.length) 0 ∧
      (∀ (k : Nat) (h : k < 32), chunkSize v ≤ k → b[k] = s.t[k]) ∧
      engineStep c s = .next { s with
        t := b
        lanes := absorb c v (injectLength v s.lenl s.lanes) (b.toList.take (chunkSize v)) s.i
        ph := .final }

/-- R165, R166, R104, R105: the FINAL and MIXP steps, the whole next state; neither reads memory or can be refused. -/
def Obligations.LastStepsWriteOutputs : Prop :=
  ∀ (c : Cfg) (s : State),
    (∀ v, s.ph = .final → variantOf s.opl = some v →
      engineStep c s = .next { s with out := finalOuts c v s.lanes, ph := .done }) ∧
    (s.ph = .mixp → s.opl = 0b100 →
      engineStep c s =
        .next { s with out := ⟨(mix32 c (s.mixl.setWidth 32)).setWidth 64, 0, 0, 0⟩, ph := .done }) ∧
    (s.ph = .mixp → s.opl = 0b101 →
      engineStep c s = .next { s with out := ⟨mix64 c s.mixl, 0, 0, 0⟩, ph := .done })

/-- R54: every address the next step reads lies in [BASEL, BASEL + L), and for L = 0 there is none. -/
def Obligations.ReadsStayInsideTheWindow : Prop :=
  ∀ (s : State), s.Inv →
    (∀ a ∈ stepAddrs s, s.basel.toNat ≤ a ∧ a < s.basel.toNat + s.lenl.toNat) ∧
    (s.lenl = 0 → stepAddrs s = [])

/-- R53, R54: an engine step depends on no byte of memory but those at the addresses it reads. -/
def Obligations.EngineStepReadsOnlyItsAddresses : Prop :=
  ∀ (c : Cfg) (s : State) (m : List Host.Cell), (∀ a ∈ stepAddrs s, memByte m a = memByte s.mem a) →
    engineStep c { s with mem := m } =
      match engineStep c s with
      | .next t => .next { t with mem := m }
      | .fault r => .fault r
      | .refused r => .refused r

/-- R55: the reads of a hash command from acceptance to DONE, in order: the last C bytes first when L > C, then every
byte of the message once in increasing order; L reads, plus C more when L > C. -/
def Obligations.ReadsOfACommandInOrder : Prop :=
  ∀ (c : Cfg) (s : State) (v : Variant), s.Inv → s.base.toNat + s.len.toNat ≤ 2 ^ AW →
    answersOn s s.base.toNat (s.base.toNat + s.len.toNat) →
    runAddrs c (hashSteps v s.len.toNat) (acceptHash c v s) =
      (if chunkSize v < s.len.toNat then
        addrsFrom (s.base.toNat + (s.len.toNat - chunkSize v)) (chunkSize v) else []) ++
        addrsFrom s.base.toNat s.len.toNat

/-- R58 (a), U6: a step that meets an address that never answers, every address before it plain, does not happen: the
engine stays as it is, BUSY stays 1. The stutter is the model's reading of "stuck" (log 7). -/
def Obligations.UnansweredReadStallsTheEngine : Prop :=
  ∀ (c : Cfg) (s : State) (before : List Nat) (a : Nat) (after : List Nat), s.Inv →
    stepAddrs s = before ++ a :: after → (∀ b ∈ before, kindAt s b = .plain) → kindAt s a = .silent →
    engineStep c s = .next s

/-- R25, R205: an engine step reads none of the host's registers: changing BASE, LEN, MIXIN, ERR, ERRCODE (and the
model's agenda and read data) before it changes them after it and nothing else. -/
def Obligations.RunningCommandIgnoresHostRegisters : Prop :=
  ∀ (c : Cfg) (s : State) (base len : Addr) (mixin : Word64) (err : Bool) (code : BitVec 3) (rdata : Word64)
    (agenda : List Turn),
    let host (x : State) : State :=
      { x with
        base := base
        len := len
        mixin := mixin
        err := err
        errcode := code
        rdata := rdata
        agenda := agenda }
    engineStep c (host s) =
      match engineStep c s with
      | .next t => .next (host t)
      | .fault r => .fault r
      | .refused r => .refused r

/-- R25, R30, R56: what an engine step leaves as it is, in every phase: the host's registers, the flags, the latches,
all of memory; and what it may change: PH, I, the lanes, T and OUT0..OUT3, T only in TAIL and OUT only in FINAL and
MIXP, which touch no lane. -/
def Obligations.EngineStepFrame : Prop :=
  ∀ (c : Cfg) (s t : State), engineStep c s = .next t →
    t.lcmd = s.lcmd ∧ t.opl = s.opl ∧ t.basel = s.basel ∧ t.lenl = s.lenl ∧ t.mixl = s.mixl ∧
    t.base = s.base ∧ t.len = s.len ∧ t.mixin = s.mixin ∧ t.err = s.err ∧ t.errcode = s.errcode ∧
    (∀ a, memByte t.mem a = memByte s.mem a) ∧ t.kinds = s.kinds ∧ t.agenda = s.agenda ∧ t.rdata = s.rdata ∧
    t.draws = s.draws ∧
    (s.ph ≠ .tail → t.t = s.t) ∧ (s.ph ≠ .final → s.ph ≠ .mixp → t.out = s.out) ∧
    (s.ph = .final ∨ s.ph = .mixp → t.lanes = s.lanes ∧ t.i = s.i) ∧ (s.ph ≠ .loop → t.i = s.i)

/-! ### Steps of the machine -/

/-- R26, R27, R159, R160: when the host's next turn writes a register, any number and any word, the step is that
`RegWrite` on the state with the turn taken; when it writes a word to CMD that decodes to a command, that is the
command's own meaning; and a table word placed by `withFetchWord` is run so. That a command is placed as a turn of the
host, and that a table word is the register data, are the model's (logs 12 and 18). -/
def Obligations.StepRunsTheDecodedCommand : Prop :=
  (∀ (s : State) (n : Nat) (v : Word64) (rest : List Turn), s.agenda = .host (.regWrite n v) :: rest →
    step s = regWrite n v { s with agenda := rest }) ∧
  (∀ (s : State) (v : Word64) (i : Instr) (rest : List Turn), s.agenda = .host (.regWrite 0 v) :: rest →
    decode v = .ok i → step s = exec i { s with agenda := rest }) ∧
  (∀ (s : State) (i : Instr), step (s.withFetchWord 64 (encode i).toNat) = exec i s ∧
    decodeTableWord 64 (encode i).toNat = some i)

/-- R200: the reset event, in any state: the values of R35. That the input space and the rest of the agenda are as they
were is the model's choice (log 17). -/
def Obligations.ResetEventInAnyPhase : Prop :=
  ∀ (s : State) (rest : List Turn), s.agenda = .reset :: rest →
    ∃ t, step s = .next t ∧ t.ph = .idle ∧ t.busy = false ∧ t.isDone = false ∧ t.err = false ∧ t.errcode = 0 ∧
      t.base = 0 ∧ t.len = 0 ∧ t.mixin = 0 ∧ t.lcmd = 0 ∧ statusWord t = 0 ∧
      (∀ a, memByte t.mem a = memByte s.mem a) ∧ t.agenda = rest

/-- R35: what State.reset holds where the spec gives a value. -/
def Obligations.ResetStateValues : Prop :=
  State.reset.ph = .idle ∧ State.reset.lcmd = 0 ∧ State.reset.base = 0 ∧ State.reset.len = 0 ∧
  State.reset.mixin = 0 ∧ State.reset.err = false ∧ State.reset.errcode = 0 ∧
  State.reset.busy = false ∧ State.reset.isDone = false ∧
  ∀ n, n ≤ 4 → (regRead n State.reset).1 = 0

/-- R167: the whole transition relation of PH, over any step of the machine. The last clause: an accepted command, and a
command only, leaves IDLE or DONE for a running phase, and TERM is entered exactly for L > C. -/
def Obligations.PhaseTransitionTable : Prop :=
  ∀ (s t : State), s.Inv → step s = .next t →
    (∃ rest, s.agenda = .reset :: rest ∧ t.ph = .idle) ∨
    t.ph = s.ph ∨
    (s.ph = .term ∧ t.ph = .loop) ∨
    (s.ph = .loop ∧ t.ph = .tail ∧
      ∃ v, variantOf s.opl = some v ∧ s.i.toNat + chunkSize v = nFull v s.lenl.toNat * chunkSize v) ∨
    (s.ph = .tail ∧ t.ph = .final) ∨ (s.ph = .final ∧ t.ph = .done) ∨ (s.ph = .mixp ∧ t.ph = .done) ∨
    ((s.ph = .idle ∨ s.ph = .done) ∧
      ∃ (w : Word64) (i : Instr) (rest : List Turn), s.agenda = .host (.regWrite 0 w) :: rest ∧ decode w = .ok i ∧
        t.lcmd = w ∧
        ((∃ v, i = commandOf v ∧ t.ph = if chunkSize v < t.lenl.toNat then .term else .tail) ∨
          ((i = .mix32 ∨ i = .mix64) ∧ t.ph = .mixp)))

/-- Derived from R56, R50 and R59: memory changes only by a host write, which changes the one byte it names. The reset
turn is left to ResetEventInAnyPhase: that memory survives it is the model's choice (log 17). That a host write stores
its byte whatever the kind of the address, and that a change of kind changes no byte, is its choice too (log 22), as are
the turns (log 9). -/
def Obligations.OnlyHostWritesChangeMemory : Prop :=
  ∀ (s t : State), s.Inv → step s = .next t →
    (∀ (a : Addr) (b : Byte) (rest : List Turn), s.agenda = .host (.memWrite a b) :: rest →
      memByte t.mem a.toNat = b ∧ ∀ x, x ≠ a.toNat → memByte t.mem x = memByte s.mem x) ∧
    ((∀ (a : Addr) (b : Byte) (rest : List Turn), s.agenda ≠ .host (.memWrite a b) :: rest) →
      (∀ rest : List Turn, s.agenda ≠ .reset :: rest) →
      ∀ x, memByte t.mem x = memByte s.mem x)

/-- R31, R144: while DONE stays 1 OUT0..OUT3 and LCMD keep their values, whatever else happens. -/
def Obligations.ResultIsStableWhileDone : Prop :=
  ∀ (s t : State), step s = .next t → s.isDone = true → t.isDone = true → t.out = s.out ∧ t.lcmd = s.lcmd

/-- R32, R28, R25: a register write other than of CMD changes no lane, latch, phase, offset, scratch byte, output or
memory byte, and no register but the one named; only STATUS writes touch ERR and ERRCODE. -/
def Obligations.PlainRegisterWriteFrame : Prop :=
  ∀ (s t : State) (n : Nat) (v : Word64), n ≠ 0 → regWrite n v s = .next t →
    t.ph = s.ph ∧ t.i = s.i ∧ t.lanes = s.lanes ∧ t.t = s.t ∧ t.lcmd = s.lcmd ∧ t.opl = s.opl ∧ t.basel = s.basel ∧
    t.lenl = s.lenl ∧ t.mixl = s.mixl ∧ t.out = s.out ∧ (∀ a, memByte t.mem a = memByte s.mem a) ∧
    t.kinds = s.kinds ∧ t.agenda = s.agenda ∧
    (n ≠ 1 → t.err = s.err ∧ t.errcode = s.errcode) ∧ (n ≠ 2 → t.base = s.base) ∧ (n ≠ 3 → t.len = s.len) ∧
    (n ≠ 4 → t.mixin = s.mixin)

/-! ### Headlines -/

/-- The invariant holds after reset, with the model's reset values where the spec gives none (log 3). -/
def Obligations.InvariantAtReset : Prop := State.reset.Inv

/-- Every step of the machine, whoever takes it, keeps the invariant: canonical memory, ERRCODE with ERR, a legal LCMD,
the latches and I that each phase needs, the zero upper halves of W = 32 lanes, and the shape of the result. -/
def Obligations.EveryStepKeepsTheInvariant : Prop :=
  ∀ (s t : State), s.Inv → step s = .next t → t.Inv

/-- R180, R145: from any state that meets the invariant, under any agenda, no run ever faults. -/
def Obligations.NoRunEverFaults : Prop :=
  ∀ (s : State) (n : Nat) (r : Fault), s.Inv → Host.Core.run Sys2Proof.core n s ≠ .fault r

/-- R207, R167: an engine step of a running command whose window answers always happens and brings the command one step
nearer to DONE; at 0 remaining steps no command runs. -/
def Obligations.EveryEngineStepMakesProgress : Prop :=
  ∀ (c : Cfg) (s : State), s.Inv → s.busy = true → answersOn s s.basel.toNat (s.basel.toNat + s.lenl.toNat) →
    ∃ t, engineStep c s = .next t ∧ remainingSteps s = remainingSteps t + 1 ∧ (remainingSteps t = 0 ↔ t.isDone = true)

/-- R170 to R173 with R160 to R168 and R207: HASH32, HASH64, HASH128 and HASH256 complete. Issued with BUSY = 0, in
range, on a window that answers, with no other turn pending (log 9), the command is accepted and after [L > C] +
n_full + 2 steps DONE = 1 and OUT0..OUT3 hold the variant's function of the message. BASE, LEN, MIXIN, ERR, ERRCODE,
all of memory and the host's read data are as before. -/
def Obligations.HashCommandsComplete : Prop :=
  ∀ (s : State) (v : Variant), s.Inv → s.busy = false → s.agenda = [] →
    s.base.toNat + s.len.toNat ≤ 2 ^ AW → answersOn s s.base.toNat (s.base.toNat + s.len.toNat) →
    ∃ t u, exec (commandOf v) s = .next t ∧
      Host.Core.run Sys2Proof.core (hashSteps v s.len.toNat) t = .next u ∧
      u.ph = .done ∧ u.out = hashOuts Config.cfg v (namedMessage s) ∧ u.lcmd = encode (commandOf v) ∧
      u.base = s.base ∧ u.len = s.len ∧ u.mixin = s.mixin ∧ u.err = s.err ∧ u.errcode = s.errcode ∧
      (∀ a, memByte u.mem a = memByte s.mem a) ∧ u.rdata = s.rdata

/-- R104, R105 with R160 and R166: MIX32 and MIX64 complete in one step after acceptance, whatever BASE and LEN hold:
with no other turn pending (log 9), OUT0 is the mixer of MIXIN at the command's width, OUT1..OUT3 are 0, and no lane,
T, I, memory byte or other register changes. -/
def Obligations.MixCommandsComplete : Prop :=
  ∀ (s : State) (i : Instr), i = .mix32 ∨ i = .mix64 → s.busy = false → s.agenda = [] →
    ∃ t u, exec i s = .next t ∧ step t = .next u ∧ u.ph = .done ∧
      (i = .mix32 → u.out = ⟨(mix32 Config.cfg (s.mixin.setWidth 32)).setWidth 64, 0, 0, 0⟩) ∧
      (i = .mix64 → u.out = ⟨mix64 Config.cfg s.mixin, 0, 0, 0⟩) ∧
      u.lcmd = encode i ∧ u.lanes = s.lanes ∧ u.t = s.t ∧ u.i = s.i ∧ u.base = s.base ∧ u.len = s.len ∧
      u.mixin = s.mixin ∧ u.err = s.err ∧ u.errcode = s.errcode ∧ (∀ a, memByte u.mem a = memByte s.mem a)

/-- R168, R58, R62: whatever the host does meanwhile, as long as it keeps the window readable and unmodified and does
not reset the engine, the first time DONE is 1 after acceptance OUT0..OUT3 hold the variant's function of the message.
The interleaving is the agenda (log 9). -/
def Obligations.InterleavingDoesNotChangeTheResult : Prop :=
  ∀ (s t u : State) (v : Variant) (n : Nat), s.Inv → s.busy = false →
    answersOn s s.base.toNat (s.base.toNat + s.len.toNat) →
    (∀ a ∈ s.agenda, keepsWindow s.base.toNat (s.base.toNat + s.len.toNat) a = true) →
    exec (commandOf v) s = .next t → t.busy = true →
    Host.Core.run Sys2Proof.core n t = .next u → u.isDone = true →
    (∀ m w, m < n → Host.Core.run Sys2Proof.core m t = .next w → w.isDone = false) →
    u.out = hashOuts Config.cfg v (namedMessage s)

/-- R174, R191: two runs of the same command on equal messages, from any two states (of one engine or of two), at any
two addresses and under any two agendas that keep their windows, give equal OUT0..OUT3 when first DONE. The spec derives
this from R161 and R168; the interleavings are the agendas (log 9), and both engines run with `REF` (log 1). -/
def Obligations.EqualMessagesGiveEqualResults : Prop :=
  ∀ (s s' t t' u u' : State) (v : Variant) (n n' : Nat), s.Inv → s'.Inv → s.busy = false → s'.busy = false →
    answersOn s s.base.toNat (s.base.toNat + s.len.toNat) →
    answersOn s' s'.base.toNat (s'.base.toNat + s'.len.toNat) →
    (∀ a ∈ s.agenda, keepsWindow s.base.toNat (s.base.toNat + s.len.toNat) a = true) →
    (∀ a ∈ s'.agenda, keepsWindow s'.base.toNat (s'.base.toNat + s'.len.toNat) a = true) →
    s.len = s'.len →
    (∀ k, k < s.len.toNat → memByte s.mem (s.base.toNat + k) = memByte s'.mem (s'.base.toNat + k)) →
    exec (commandOf v) s = .next t → t.busy = true → exec (commandOf v) s' = .next t' → t'.busy = true →
    Host.Core.run Sys2Proof.core n t = .next u → u.isDone = true →
    (∀ m w, m < n → Host.Core.run Sys2Proof.core m t = .next w → w.isDone = false) →
    Host.Core.run Sys2Proof.core n' t' = .next u' → u'.isDone = true →
    (∀ m w, m < n' → Host.Core.run Sys2Proof.core m t' = .next w → w.isDone = false) →
    u.out = u'.out

/-- R22, R23, R33, R35: dead elements are never read: two states that agree on their live part step to states that
agree on their live part, or stop for the same reason, under any agenda. -/
def Obligations.DeadElementsAreNeverRead : Prop :=
  ∀ (s u : State), AgreeLive s u → SameOutcome (step s) (step u)

/-- R76, R75: the call `hashN(bytes, length)` made by the host returns: from any state with BUSY = 0, run to its end,
the last read gives the last output word asked for. The alternation of polls and engine turns is the model's (log
10). -/
def Obligations.HashCallReturnsItsWords : Prop :=
  ∀ (s : State) (v : Variant) (bytes length : Addr) (words : Nat), s.Inv → s.busy = false →
    s.agenda = callHash v bytes length words → 1 ≤ words → words ≤ 4 →
    bytes.toNat + length.toNat ≤ 2 ^ AW → answersOn s bytes.toNat (bytes.toNat + length.toNat) →
    ∃ n u, Host.Core.run Sys2Proof.core n s = .next u ∧ u.agenda = [] ∧ u.isDone = true ∧
      u.rdata = (hashOuts Config.cfg v ((addrsFrom bytes.toNat length.toNat).map (memByte s.mem))).word (words - 1)

/-- R76, R75: the call `mixN(v)` made by the host returns the mixer of its argument. -/
def Obligations.MixCallReturnsItsWord : Prop :=
  ∀ (s : State) (v : Word64), s.busy = false →
    (s.agenda = callMix .mix32 v → ∃ n u, Host.Core.run Sys2Proof.core n s = .next u ∧ u.agenda = [] ∧
      u.rdata = (mix32 Config.cfg (v.setWidth 32)).setWidth 64) ∧
    (s.agenda = callMix .mix64 v → ∃ n u, Host.Core.run Sys2Proof.core n s = .next u ∧ u.agenda = [] ∧
      u.rdata = mix64 Config.cfg v)

/-! ### The turns of the host, and the launch on a window that does not answer -/

/-- R58 (a), 93_implementation_defined.md U6: the model refuses, by name, the launch of a hash command whose window holds
an address that does not answer as the command is issued. The reading of U6 and the form of the refusal are the model's
(log 23); that side-effect addresses are looked for first is too (log 8). -/
def Obligations.SilentWindowLaunchRefused : Prop :=
  ∀ (s : State) (v : Variant) (a : Nat), s.Inv → s.busy = false → s.base.toNat + s.len.toNat ≤ 2 ^ AW →
    s.base.toNat ≤ a → a < s.base.toNat + s.len.toNat → kindAt s a = .silent →
    (∀ b, s.base.toNat ≤ b → b < s.base.toNat + s.len.toNat → kindAt s b ≠ .sideEffects) →
    exec (commandOf v) s = .refused .silentWindow

/-- R26 to R30, R75, R159: what a read by the host gives, and the whole next state of its turn: the value arrives in the
read data (log 11), and no phase, offset, lane, scratch byte, latch, register, flag or memory byte changes. A read of
OUT0..OUT3 while DONE = 0, and a read of a byte at an address that is not plain, draws one free value (logs 4 and 11). A
poll of `wait` that finds DONE = 0 lets the engine act and polls again (log 10). -/
def Obligations.HostReadTurns : Prop :=
  (∀ (s : State), regRead 0 s = (s.lcmd, s) ∧ regRead 1 s = (statusWord s, s) ∧
    regRead 2 s = (s.base.setWidth 64, s) ∧ regRead 3 s = (s.len.setWidth 64, s) ∧ regRead 4 s = (s.mixin, s)) ∧
  (∀ (s : State) (n : Nat) (rest : List Turn), s.agenda = .host (.regRead n) :: rest →
    step s = .next { s with
      agenda := rest
      rdata := (regRead n s).1
      draws := if 8 ≤ n ∧ n ≤ 11 ∧ s.isDone = false then s.draws + 1 else s.draws }) ∧
  (∀ (s : State) (rest : List Turn), s.agenda = .host .wait :: rest →
    step s = .next { s with
      agenda := if s.isDone then rest else .engine :: .host .wait :: rest
      rdata := statusWord s }) ∧
  (∀ (s : State) (a : Addr) (rest : List Turn), s.agenda = .host (.memRead a) :: rest →
    step s = .next { s with
      agenda := rest
      rdata := if kindAt s a.toNat = .plain then (memByte s.mem a.toNat).setWidth 64 else Config.freeWord s.draws
      draws := if kindAt s a.toNat = .plain then s.draws else s.draws + 1 })

/-- R159, R58, R59: the whole next state of a turn in which the host writes a byte of the input space, or the platform
changes the kind of an address: the one byte, or the one kind, and nothing else. That a byte is stored whatever the kind
of its address, and stays when the kind changes, is the model's choice (log 22), as the kinds are (log 6). -/
def Obligations.HostMemoryTurns : Prop :=
  (∀ (s : State) (a : Addr) (b : Byte) (rest : List Turn), s.Inv → s.agenda = .host (.memWrite a b) :: rest →
    ∃ m, step s = .next { s with agenda := rest, mem := m } ∧ memByte m a.toNat = b ∧
      ∀ x, x ≠ a.toNat → memByte m x = memByte s.mem x) ∧
  (∀ (s : State) (a : Addr) (k : AddrKind) (rest : List Turn), s.Inv → s.agenda = .host (.setKind a k) :: rest →
    ∃ t, step s = .next t ∧ t = { s with agenda := rest, kinds := t.kinds } ∧ kindAt t a.toNat = k ∧
      ∀ x, x ≠ a.toNat → kindAt t x = kindAt s x)
end

