-- ==== Sys2Proof/Laws/State.lean ====
section
/-! SUPPORT. What each named update of the state does to each field, so that no later proof unfolds a record update. -/

namespace Sys2Proof.Machine

open Sys2Proof

/-! ### setAgenda -/

@[simp] theorem setAgenda_ph (rest : List Turn) (s : State) : (setAgenda rest s).ph = s.ph := rfl
@[simp] theorem setAgenda_i (rest : List Turn) (s : State) : (setAgenda rest s).i = s.i := rfl
@[simp] theorem setAgenda_lanes (rest : List Turn) (s : State) : (setAgenda rest s).lanes = s.lanes := rfl
@[simp] theorem setAgenda_t (rest : List Turn) (s : State) : (setAgenda rest s).t = s.t := rfl
@[simp] theorem setAgenda_lcmd (rest : List Turn) (s : State) : (setAgenda rest s).lcmd = s.lcmd := rfl
@[simp] theorem setAgenda_opl (rest : List Turn) (s : State) : (setAgenda rest s).opl = s.opl := rfl
@[simp] theorem setAgenda_basel (rest : List Turn) (s : State) : (setAgenda rest s).basel = s.basel := rfl
@[simp] theorem setAgenda_lenl (rest : List Turn) (s : State) : (setAgenda rest s).lenl = s.lenl := rfl
@[simp] theorem setAgenda_mixl (rest : List Turn) (s : State) : (setAgenda rest s).mixl = s.mixl := rfl
@[simp] theorem setAgenda_base (rest : List Turn) (s : State) : (setAgenda rest s).base = s.base := rfl
@[simp] theorem setAgenda_len (rest : List Turn) (s : State) : (setAgenda rest s).len = s.len := rfl
@[simp] theorem setAgenda_mixin (rest : List Turn) (s : State) : (setAgenda rest s).mixin = s.mixin := rfl
@[simp] theorem setAgenda_err (rest : List Turn) (s : State) : (setAgenda rest s).err = s.err := rfl
@[simp] theorem setAgenda_errcode (rest : List Turn) (s : State) : (setAgenda rest s).errcode = s.errcode := rfl
@[simp] theorem setAgenda_out (rest : List Turn) (s : State) : (setAgenda rest s).out = s.out := rfl
@[simp] theorem setAgenda_mem (rest : List Turn) (s : State) : (setAgenda rest s).mem = s.mem := rfl
@[simp] theorem setAgenda_kinds (rest : List Turn) (s : State) : (setAgenda rest s).kinds = s.kinds := rfl
@[simp] theorem setAgenda_agenda (rest : List Turn) (s : State) : (setAgenda rest s).agenda = rest := rfl
@[simp] theorem setAgenda_rdata (rest : List Turn) (s : State) : (setAgenda rest s).rdata = s.rdata := rfl
@[simp] theorem setAgenda_draws (rest : List Turn) (s : State) : (setAgenda rest s).draws = s.draws := rfl

/-! ### latch -/

@[simp] theorem latch_ph (v : Word64) (s : State) : (latch v s).ph = s.ph := rfl
@[simp] theorem latch_i (v : Word64) (s : State) : (latch v s).i = s.i := rfl
@[simp] theorem latch_lanes (v : Word64) (s : State) : (latch v s).lanes = s.lanes := rfl
@[simp] theorem latch_t (v : Word64) (s : State) : (latch v s).t = s.t := rfl
@[simp] theorem latch_lcmd (v : Word64) (s : State) : (latch v s).lcmd = v := rfl
@[simp] theorem latch_opl (v : Word64) (s : State) : (latch v s).opl = opField v := rfl
@[simp] theorem latch_basel (v : Word64) (s : State) : (latch v s).basel = s.base := rfl
@[simp] theorem latch_lenl (v : Word64) (s : State) : (latch v s).lenl = s.len := rfl
@[simp] theorem latch_mixl (v : Word64) (s : State) : (latch v s).mixl = s.mixin := rfl
@[simp] theorem latch_base (v : Word64) (s : State) : (latch v s).base = s.base := rfl
@[simp] theorem latch_len (v : Word64) (s : State) : (latch v s).len = s.len := rfl
@[simp] theorem latch_mixin (v : Word64) (s : State) : (latch v s).mixin = s.mixin := rfl
@[simp] theorem latch_err (v : Word64) (s : State) : (latch v s).err = s.err := rfl
@[simp] theorem latch_errcode (v : Word64) (s : State) : (latch v s).errcode = s.errcode := rfl
@[simp] theorem latch_out (v : Word64) (s : State) : (latch v s).out = freeOuts s.draws := rfl
@[simp] theorem latch_mem (v : Word64) (s : State) : (latch v s).mem = s.mem := rfl
@[simp] theorem latch_kinds (v : Word64) (s : State) : (latch v s).kinds = s.kinds := rfl
@[simp] theorem latch_agenda (v : Word64) (s : State) : (latch v s).agenda = s.agenda := rfl
@[simp] theorem latch_rdata (v : Word64) (s : State) : (latch v s).rdata = s.rdata := rfl
@[simp] theorem latch_draws (v : Word64) (s : State) : (latch v s).draws = s.draws + 4 := rfl

/-! ### acceptHash -/

@[simp] theorem acceptHash_ph (c : Cfg) (v : Variant) (s : State) : (acceptHash c v s).ph = if chunkSize v < s.len.toNat then .term else .tail := rfl
@[simp] theorem acceptHash_i (c : Cfg) (v : Variant) (s : State) : (acceptHash c v s).i = 0 := rfl
@[simp] theorem acceptHash_lanes (c : Cfg) (v : Variant) (s : State) : (acceptHash c v s).lanes = seeds c v := rfl
@[simp] theorem acceptHash_t (c : Cfg) (v : Variant) (s : State) : (acceptHash c v s).t = s.t := rfl
@[simp] theorem acceptHash_lcmd (c : Cfg) (v : Variant) (s : State) : (acceptHash c v s).lcmd = encode (commandOf v) := rfl
@[simp] theorem acceptHash_opl (c : Cfg) (v : Variant) (s : State) : (acceptHash c v s).opl = opField (encode (commandOf v)) := rfl
@[simp] theorem acceptHash_basel (c : Cfg) (v : Variant) (s : State) : (acceptHash c v s).basel = s.base := rfl
@[simp] theorem acceptHash_lenl (c : Cfg) (v : Variant) (s : State) : (acceptHash c v s).lenl = s.len := rfl
@[simp] theorem acceptHash_mixl (c : Cfg) (v : Variant) (s : State) : (acceptHash c v s).mixl = s.mixin := rfl
@[simp] theorem acceptHash_base (c : Cfg) (v : Variant) (s : State) : (acceptHash c v s).base = s.base := rfl
@[simp] theorem acceptHash_len (c : Cfg) (v : Variant) (s : State) : (acceptHash c v s).len = s.len := rfl
@[simp] theorem acceptHash_mixin (c : Cfg) (v : Variant) (s : State) : (acceptHash c v s).mixin = s.mixin := rfl
@[simp] theorem acceptHash_err (c : Cfg) (v : Variant) (s : State) : (acceptHash c v s).err = s.err := rfl
@[simp] theorem acceptHash_errcode (c : Cfg) (v : Variant) (s : State) : (acceptHash c v s).errcode = s.errcode := rfl
@[simp] theorem acceptHash_out (c : Cfg) (v : Variant) (s : State) : (acceptHash c v s).out = freeOuts s.draws := rfl
@[simp] theorem acceptHash_mem (c : Cfg) (v : Variant) (s : State) : (acceptHash c v s).mem = s.mem := rfl
@[simp] theorem acceptHash_kinds (c : Cfg) (v : Variant) (s : State) : (acceptHash c v s).kinds = s.kinds := rfl
@[simp] theorem acceptHash_agenda (c : Cfg) (v : Variant) (s : State) : (acceptHash c v s).agenda = s.agenda := rfl
@[simp] theorem acceptHash_rdata (c : Cfg) (v : Variant) (s : State) : (acceptHash c v s).rdata = s.rdata := rfl
@[simp] theorem acceptHash_draws (c : Cfg) (v : Variant) (s : State) : (acceptHash c v s).draws = s.draws + 4 := rfl

/-! ### acceptMix -/

@[simp] theorem acceptMix_ph (i : Instr) (s : State) : (acceptMix i s).ph = .mixp := rfl
@[simp] theorem acceptMix_i (i : Instr) (s : State) : (acceptMix i s).i = s.i := rfl
@[simp] theorem acceptMix_lanes (i : Instr) (s : State) : (acceptMix i s).lanes = s.lanes := rfl
@[simp] theorem acceptMix_t (i : Instr) (s : State) : (acceptMix i s).t = s.t := rfl
@[simp] theorem acceptMix_lcmd (i : Instr) (s : State) : (acceptMix i s).lcmd = encode i := rfl
@[simp] theorem acceptMix_opl (i : Instr) (s : State) : (acceptMix i s).opl = opField (encode i) := rfl
@[simp] theorem acceptMix_basel (i : Instr) (s : State) : (acceptMix i s).basel = s.base := rfl
@[simp] theorem acceptMix_lenl (i : Instr) (s : State) : (acceptMix i s).lenl = s.len := rfl
@[simp] theorem acceptMix_mixl (i : Instr) (s : State) : (acceptMix i s).mixl = s.mixin := rfl
@[simp] theorem acceptMix_base (i : Instr) (s : State) : (acceptMix i s).base = s.base := rfl
@[simp] theorem acceptMix_len (i : Instr) (s : State) : (acceptMix i s).len = s.len := rfl
@[simp] theorem acceptMix_mixin (i : Instr) (s : State) : (acceptMix i s).mixin = s.mixin := rfl
@[simp] theorem acceptMix_err (i : Instr) (s : State) : (acceptMix i s).err = s.err := rfl
@[simp] theorem acceptMix_errcode (i : Instr) (s : State) : (acceptMix i s).errcode = s.errcode := rfl
@[simp] theorem acceptMix_out (i : Instr) (s : State) : (acceptMix i s).out = freeOuts s.draws := rfl
@[simp] theorem acceptMix_mem (i : Instr) (s : State) : (acceptMix i s).mem = s.mem := rfl
@[simp] theorem acceptMix_kinds (i : Instr) (s : State) : (acceptMix i s).kinds = s.kinds := rfl
@[simp] theorem acceptMix_agenda (i : Instr) (s : State) : (acceptMix i s).agenda = s.agenda := rfl
@[simp] theorem acceptMix_rdata (i : Instr) (s : State) : (acceptMix i s).rdata = s.rdata := rfl
@[simp] theorem acceptMix_draws (i : Instr) (s : State) : (acceptMix i s).draws = s.draws + 4 := rfl

/-! ### clearErr -/

@[simp] theorem clearErr_ph (s : State) : (clearErr s).ph = s.ph := rfl
@[simp] theorem clearErr_i (s : State) : (clearErr s).i = s.i := rfl
@[simp] theorem clearErr_lanes (s : State) : (clearErr s).lanes = s.lanes := rfl
@[simp] theorem clearErr_t (s : State) : (clearErr s).t = s.t := rfl
@[simp] theorem clearErr_lcmd (s : State) : (clearErr s).lcmd = s.lcmd := rfl
@[simp] theorem clearErr_opl (s : State) : (clearErr s).opl = s.opl := rfl
@[simp] theorem clearErr_basel (s : State) : (clearErr s).basel = s.basel := rfl
@[simp] theorem clearErr_lenl (s : State) : (clearErr s).lenl = s.lenl := rfl
@[simp] theorem clearErr_mixl (s : State) : (clearErr s).mixl = s.mixl := rfl
@[simp] theorem clearErr_base (s : State) : (clearErr s).base = s.base := rfl
@[simp] theorem clearErr_len (s : State) : (clearErr s).len = s.len := rfl
@[simp] theorem clearErr_mixin (s : State) : (clearErr s).mixin = s.mixin := rfl
@[simp] theorem clearErr_err (s : State) : (clearErr s).err = false := rfl
@[simp] theorem clearErr_errcode (s : State) : (clearErr s).errcode = 0 := rfl
@[simp] theorem clearErr_out (s : State) : (clearErr s).out = s.out := rfl
@[simp] theorem clearErr_mem (s : State) : (clearErr s).mem = s.mem := rfl
@[simp] theorem clearErr_kinds (s : State) : (clearErr s).kinds = s.kinds := rfl
@[simp] theorem clearErr_agenda (s : State) : (clearErr s).agenda = s.agenda := rfl
@[simp] theorem clearErr_rdata (s : State) : (clearErr s).rdata = s.rdata := rfl
@[simp] theorem clearErr_draws (s : State) : (clearErr s).draws = s.draws := rfl

/-! ### refuse -/

@[simp] theorem refuse_ph (r : RefusalCode) (s : State) : (refuse r s).ph = s.ph := by
  unfold refuse; split <;> simp_all

@[simp] theorem refuse_i (r : RefusalCode) (s : State) : (refuse r s).i = s.i := by
  unfold refuse; split <;> simp_all

@[simp] theorem refuse_lanes (r : RefusalCode) (s : State) : (refuse r s).lanes = s.lanes := by
  unfold refuse; split <;> simp_all

@[simp] theorem refuse_t (r : RefusalCode) (s : State) : (refuse r s).t = s.t := by
  unfold refuse; split <;> simp_all

@[simp] theorem refuse_lcmd (r : RefusalCode) (s : State) : (refuse r s).lcmd = s.lcmd := by
  unfold refuse; split <;> simp_all

@[simp] theorem refuse_opl (r : RefusalCode) (s : State) : (refuse r s).opl = s.opl := by
  unfold refuse; split <;> simp_all

@[simp] theorem refuse_basel (r : RefusalCode) (s : State) : (refuse r s).basel = s.basel := by
  unfold refuse; split <;> simp_all

@[simp] theorem refuse_lenl (r : RefusalCode) (s : State) : (refuse r s).lenl = s.lenl := by
  unfold refuse; split <;> simp_all

@[simp] theorem refuse_mixl (r : RefusalCode) (s : State) : (refuse r s).mixl = s.mixl := by
  unfold refuse; split <;> simp_all

@[simp] theorem refuse_base (r : RefusalCode) (s : State) : (refuse r s).base = s.base := by
  unfold refuse; split <;> simp_all

@[simp] theorem refuse_len (r : RefusalCode) (s : State) : (refuse r s).len = s.len := by
  unfold refuse; split <;> simp_all

@[simp] theorem refuse_mixin (r : RefusalCode) (s : State) : (refuse r s).mixin = s.mixin := by
  unfold refuse; split <;> simp_all

@[simp] theorem refuse_err (r : RefusalCode) (s : State) : (refuse r s).err = true := by
  unfold refuse; split <;> simp_all

@[simp] theorem refuse_errcode (r : RefusalCode) (s : State) : (refuse r s).errcode = if s.err then s.errcode else r.code := by
  unfold refuse; split <;> simp_all

@[simp] theorem refuse_out (r : RefusalCode) (s : State) : (refuse r s).out = s.out := by
  unfold refuse; split <;> simp_all

@[simp] theorem refuse_mem (r : RefusalCode) (s : State) : (refuse r s).mem = s.mem := by
  unfold refuse; split <;> simp_all

@[simp] theorem refuse_kinds (r : RefusalCode) (s : State) : (refuse r s).kinds = s.kinds := by
  unfold refuse; split <;> simp_all

@[simp] theorem refuse_agenda (r : RefusalCode) (s : State) : (refuse r s).agenda = s.agenda := by
  unfold refuse; split <;> simp_all

@[simp] theorem refuse_rdata (r : RefusalCode) (s : State) : (refuse r s).rdata = s.rdata := by
  unfold refuse; split <;> simp_all

@[simp] theorem refuse_draws (r : RefusalCode) (s : State) : (refuse r s).draws = s.draws := by
  unfold refuse; split <;> simp_all


/-! ### memSet -/

@[simp] theorem memSet_ph (a : Addr) (b : Byte) (s : State) : (memSet a b s).ph = s.ph := rfl
@[simp] theorem memSet_i (a : Addr) (b : Byte) (s : State) : (memSet a b s).i = s.i := rfl
@[simp] theorem memSet_lanes (a : Addr) (b : Byte) (s : State) : (memSet a b s).lanes = s.lanes := rfl
@[simp] theorem memSet_t (a : Addr) (b : Byte) (s : State) : (memSet a b s).t = s.t := rfl
@[simp] theorem memSet_lcmd (a : Addr) (b : Byte) (s : State) : (memSet a b s).lcmd = s.lcmd := rfl
@[simp] theorem memSet_opl (a : Addr) (b : Byte) (s : State) : (memSet a b s).opl = s.opl := rfl
@[simp] theorem memSet_basel (a : Addr) (b : Byte) (s : State) : (memSet a b s).basel = s.basel := rfl
@[simp] theorem memSet_lenl (a : Addr) (b : Byte) (s : State) : (memSet a b s).lenl = s.lenl := rfl
@[simp] theorem memSet_mixl (a : Addr) (b : Byte) (s : State) : (memSet a b s).mixl = s.mixl := rfl
@[simp] theorem memSet_base (a : Addr) (b : Byte) (s : State) : (memSet a b s).base = s.base := rfl
@[simp] theorem memSet_len (a : Addr) (b : Byte) (s : State) : (memSet a b s).len = s.len := rfl
@[simp] theorem memSet_mixin (a : Addr) (b : Byte) (s : State) : (memSet a b s).mixin = s.mixin := rfl
@[simp] theorem memSet_err (a : Addr) (b : Byte) (s : State) : (memSet a b s).err = s.err := rfl
@[simp] theorem memSet_errcode (a : Addr) (b : Byte) (s : State) : (memSet a b s).errcode = s.errcode := rfl
@[simp] theorem memSet_out (a : Addr) (b : Byte) (s : State) : (memSet a b s).out = s.out := rfl
@[simp] theorem memSet_mem (a : Addr) (b : Byte) (s : State) : (memSet a b s).mem = sparsePut Config.unlistedByte a.toNat b s.mem := rfl
@[simp] theorem memSet_kinds (a : Addr) (b : Byte) (s : State) : (memSet a b s).kinds = s.kinds := rfl
@[simp] theorem memSet_agenda (a : Addr) (b : Byte) (s : State) : (memSet a b s).agenda = s.agenda := rfl
@[simp] theorem memSet_rdata (a : Addr) (b : Byte) (s : State) : (memSet a b s).rdata = s.rdata := rfl
@[simp] theorem memSet_draws (a : Addr) (b : Byte) (s : State) : (memSet a b s).draws = s.draws := rfl

/-! ### kindSet -/

@[simp] theorem kindSet_ph (a : Addr) (k : AddrKind) (s : State) : (kindSet a k s).ph = s.ph := rfl
@[simp] theorem kindSet_i (a : Addr) (k : AddrKind) (s : State) : (kindSet a k s).i = s.i := rfl
@[simp] theorem kindSet_lanes (a : Addr) (k : AddrKind) (s : State) : (kindSet a k s).lanes = s.lanes := rfl
@[simp] theorem kindSet_t (a : Addr) (k : AddrKind) (s : State) : (kindSet a k s).t = s.t := rfl
@[simp] theorem kindSet_lcmd (a : Addr) (k : AddrKind) (s : State) : (kindSet a k s).lcmd = s.lcmd := rfl
@[simp] theorem kindSet_opl (a : Addr) (k : AddrKind) (s : State) : (kindSet a k s).opl = s.opl := rfl
@[simp] theorem kindSet_basel (a : Addr) (k : AddrKind) (s : State) : (kindSet a k s).basel = s.basel := rfl
@[simp] theorem kindSet_lenl (a : Addr) (k : AddrKind) (s : State) : (kindSet a k s).lenl = s.lenl := rfl
@[simp] theorem kindSet_mixl (a : Addr) (k : AddrKind) (s : State) : (kindSet a k s).mixl = s.mixl := rfl
@[simp] theorem kindSet_base (a : Addr) (k : AddrKind) (s : State) : (kindSet a k s).base = s.base := rfl
@[simp] theorem kindSet_len (a : Addr) (k : AddrKind) (s : State) : (kindSet a k s).len = s.len := rfl
@[simp] theorem kindSet_mixin (a : Addr) (k : AddrKind) (s : State) : (kindSet a k s).mixin = s.mixin := rfl
@[simp] theorem kindSet_err (a : Addr) (k : AddrKind) (s : State) : (kindSet a k s).err = s.err := rfl
@[simp] theorem kindSet_errcode (a : Addr) (k : AddrKind) (s : State) : (kindSet a k s).errcode = s.errcode := rfl
@[simp] theorem kindSet_out (a : Addr) (k : AddrKind) (s : State) : (kindSet a k s).out = s.out := rfl
@[simp] theorem kindSet_mem (a : Addr) (k : AddrKind) (s : State) : (kindSet a k s).mem = s.mem := rfl
@[simp] theorem kindSet_kinds (a : Addr) (k : AddrKind) (s : State) : (kindSet a k s).kinds = sparsePut AddrKind.plain a.toNat k s.kinds := rfl
@[simp] theorem kindSet_agenda (a : Addr) (k : AddrKind) (s : State) : (kindSet a k s).agenda = s.agenda := rfl
@[simp] theorem kindSet_rdata (a : Addr) (k : AddrKind) (s : State) : (kindSet a k s).rdata = s.rdata := rfl
@[simp] theorem kindSet_draws (a : Addr) (k : AddrKind) (s : State) : (kindSet a k s).draws = s.draws := rfl

/-! ### resetEvent -/

@[simp] theorem resetEvent_ph (s : State) : (resetEvent s).ph = .idle := rfl
@[simp] theorem resetEvent_i (s : State) : (resetEvent s).i = 0 := rfl
@[simp] theorem resetEvent_lanes (s : State) : (resetEvent s).lanes = ⟨0, 0, 0, 0⟩ := rfl
@[simp] theorem resetEvent_t (s : State) : (resetEvent s).t = Vector.replicate 32 0 := rfl
@[simp] theorem resetEvent_lcmd (s : State) : (resetEvent s).lcmd = 0 := rfl
@[simp] theorem resetEvent_opl (s : State) : (resetEvent s).opl = 0 := rfl
@[simp] theorem resetEvent_basel (s : State) : (resetEvent s).basel = 0 := rfl
@[simp] theorem resetEvent_lenl (s : State) : (resetEvent s).lenl = 0 := rfl
@[simp] theorem resetEvent_mixl (s : State) : (resetEvent s).mixl = 0 := rfl
@[simp] theorem resetEvent_base (s : State) : (resetEvent s).base = 0 := rfl
@[simp] theorem resetEvent_len (s : State) : (resetEvent s).len = 0 := rfl
@[simp] theorem resetEvent_mixin (s : State) : (resetEvent s).mixin = 0 := rfl
@[simp] theorem resetEvent_err (s : State) : (resetEvent s).err = false := rfl
@[simp] theorem resetEvent_errcode (s : State) : (resetEvent s).errcode = 0 := rfl
@[simp] theorem resetEvent_out (s : State) : (resetEvent s).out = ⟨0, 0, 0, 0⟩ := rfl
@[simp] theorem resetEvent_mem (s : State) : (resetEvent s).mem = s.mem := rfl
@[simp] theorem resetEvent_kinds (s : State) : (resetEvent s).kinds = s.kinds := rfl
@[simp] theorem resetEvent_agenda (s : State) : (resetEvent s).agenda = s.agenda := rfl
@[simp] theorem resetEvent_rdata (s : State) : (resetEvent s).rdata = s.rdata := rfl
@[simp] theorem resetEvent_draws (s : State) : (resetEvent s).draws = s.draws := rfl

/-! ### afterTerm -/

@[simp] theorem afterTerm_ph (c : Cfg) (v : Variant) (s : State) (ch : List Byte) :
    (afterTerm c v s ch).ph =
      .loop := rfl
@[simp] theorem afterTerm_i (c : Cfg) (v : Variant) (s : State) (ch : List Byte) : (afterTerm c v s ch).i = s.i := rfl
@[simp] theorem afterTerm_lanes (c : Cfg) (v : Variant) (s : State) (ch : List Byte) :
    (afterTerm c v s ch).lanes =
      permute (absorb c v s.lanes ch (s.lenl - BitVec.ofNat AW (chunkSize v))) := rfl
@[simp] theorem afterTerm_t (c : Cfg) (v : Variant) (s : State) (ch : List Byte) : (afterTerm c v s ch).t = s.t := rfl
@[simp] theorem afterTerm_lcmd (c : Cfg) (v : Variant) (s : State) (ch : List Byte) :
    (afterTerm c v s ch).lcmd =
      s.lcmd := rfl
@[simp] theorem afterTerm_opl (c : Cfg) (v : Variant) (s : State) (ch : List Byte) :
    (afterTerm c v s ch).opl =
      s.opl := rfl
@[simp] theorem afterTerm_basel (c : Cfg) (v : Variant) (s : State) (ch : List Byte) :
    (afterTerm c v s ch).basel =
      s.basel := rfl
@[simp] theorem afterTerm_lenl (c : Cfg) (v : Variant) (s : State) (ch : List Byte) :
    (afterTerm c v s ch).lenl =
      s.lenl := rfl
@[simp] theorem afterTerm_mixl (c : Cfg) (v : Variant) (s : State) (ch : List Byte) :
    (afterTerm c v s ch).mixl =
      s.mixl := rfl
@[simp] theorem afterTerm_base (c : Cfg) (v : Variant) (s : State) (ch : List Byte) :
    (afterTerm c v s ch).base =
      s.base := rfl
@[simp] theorem afterTerm_len (c : Cfg) (v : Variant) (s : State) (ch : List Byte) :
    (afterTerm c v s ch).len =
      s.len := rfl
@[simp] theorem afterTerm_mixin (c : Cfg) (v : Variant) (s : State) (ch : List Byte) :
    (afterTerm c v s ch).mixin =
      s.mixin := rfl
@[simp] theorem afterTerm_err (c : Cfg) (v : Variant) (s : State) (ch : List Byte) :
    (afterTerm c v s ch).err =
      s.err := rfl
@[simp] theorem afterTerm_errcode (c : Cfg) (v : Variant) (s : State) (ch : List Byte) :
    (afterTerm c v s ch).errcode =
      s.errcode := rfl
@[simp] theorem afterTerm_out (c : Cfg) (v : Variant) (s : State) (ch : List Byte) :
    (afterTerm c v s ch).out =
      s.out := rfl
@[simp] theorem afterTerm_mem (c : Cfg) (v : Variant) (s : State) (ch : List Byte) :
    (afterTerm c v s ch).mem =
      s.mem := rfl
@[simp] theorem afterTerm_kinds (c : Cfg) (v : Variant) (s : State) (ch : List Byte) :
    (afterTerm c v s ch).kinds =
      s.kinds := rfl
@[simp] theorem afterTerm_agenda (c : Cfg) (v : Variant) (s : State) (ch : List Byte) :
    (afterTerm c v s ch).agenda =
      s.agenda := rfl
@[simp] theorem afterTerm_rdata (c : Cfg) (v : Variant) (s : State) (ch : List Byte) :
    (afterTerm c v s ch).rdata =
      s.rdata := rfl
@[simp] theorem afterTerm_draws (c : Cfg) (v : Variant) (s : State) (ch : List Byte) :
    (afterTerm c v s ch).draws =
      s.draws := rfl

/-! ### afterLoop -/

@[simp] theorem afterLoop_ph (c : Cfg) (v : Variant) (s : State) (ch : List Byte) :
    (afterLoop c v s ch).ph =
      if s.i.toNat + chunkSize v = nFull v s.lenl.toNat * chunkSize v then .tail else .loop := rfl
@[simp] theorem afterLoop_i (c : Cfg) (v : Variant) (s : State) (ch : List Byte) :
    (afterLoop c v s ch).i =
      s.i + BitVec.ofNat AW (chunkSize v) := rfl
@[simp] theorem afterLoop_lanes (c : Cfg) (v : Variant) (s : State) (ch : List Byte) :
    (afterLoop c v s ch).lanes =
      permute (absorb c v s.lanes ch s.i) := rfl
@[simp] theorem afterLoop_t (c : Cfg) (v : Variant) (s : State) (ch : List Byte) : (afterLoop c v s ch).t = s.t := rfl
@[simp] theorem afterLoop_lcmd (c : Cfg) (v : Variant) (s : State) (ch : List Byte) :
    (afterLoop c v s ch).lcmd =
      s.lcmd := rfl
@[simp] theorem afterLoop_opl (c : Cfg) (v : Variant) (s : State) (ch : List Byte) :
    (afterLoop c v s ch).opl =
      s.opl := rfl
@[simp] theorem afterLoop_basel (c : Cfg) (v : Variant) (s : State) (ch : List Byte) :
    (afterLoop c v s ch).basel =
      s.basel := rfl
@[simp] theorem afterLoop_lenl (c : Cfg) (v : Variant) (s : State) (ch : List Byte) :
    (afterLoop c v s ch).lenl =
      s.lenl := rfl
@[simp] theorem afterLoop_mixl (c : Cfg) (v : Variant) (s : State) (ch : List Byte) :
    (afterLoop c v s ch).mixl =
      s.mixl := rfl
@[simp] theorem afterLoop_base (c : Cfg) (v : Variant) (s : State) (ch : List Byte) :
    (afterLoop c v s ch).base =
      s.base := rfl
@[simp] theorem afterLoop_len (c : Cfg) (v : Variant) (s : State) (ch : List Byte) :
    (afterLoop c v s ch).len =
      s.len := rfl
@[simp] theorem afterLoop_mixin (c : Cfg) (v : Variant) (s : State) (ch : List Byte) :
    (afterLoop c v s ch).mixin =
      s.mixin := rfl
@[simp] theorem afterLoop_err (c : Cfg) (v : Variant) (s : State) (ch : List Byte) :
    (afterLoop c v s ch).err =
      s.err := rfl
@[simp] theorem afterLoop_errcode (c : Cfg) (v : Variant) (s : State) (ch : List Byte) :
    (afterLoop c v s ch).errcode =
      s.errcode := rfl
@[simp] theorem afterLoop_out (c : Cfg) (v : Variant) (s : State) (ch : List Byte) :
    (afterLoop c v s ch).out =
      s.out := rfl
@[simp] theorem afterLoop_mem (c : Cfg) (v : Variant) (s : State) (ch : List Byte) :
    (afterLoop c v s ch).mem =
      s.mem := rfl
@[simp] theorem afterLoop_kinds (c : Cfg) (v : Variant) (s : State) (ch : List Byte) :
    (afterLoop c v s ch).kinds =
      s.kinds := rfl
@[simp] theorem afterLoop_agenda (c : Cfg) (v : Variant) (s : State) (ch : List Byte) :
    (afterLoop c v s ch).agenda =
      s.agenda := rfl
@[simp] theorem afterLoop_rdata (c : Cfg) (v : Variant) (s : State) (ch : List Byte) :
    (afterLoop c v s ch).rdata =
      s.rdata := rfl
@[simp] theorem afterLoop_draws (c : Cfg) (v : Variant) (s : State) (ch : List Byte) :
    (afterLoop c v s ch).draws =
      s.draws := rfl

/-! ### afterTail -/

@[simp] theorem afterTail_ph (c : Cfg) (v : Variant) (s : State) (bytes : List Byte) :
    (afterTail c v s bytes).ph =
      .final := rfl
@[simp] theorem afterTail_i (c : Cfg) (v : Variant) (s : State) (bytes : List Byte) :
    (afterTail c v s bytes).i =
      s.i := rfl
@[simp] theorem afterTail_lanes (c : Cfg) (v : Variant) (s : State) (bytes : List Byte) :
    (afterTail c v s bytes).lanes =
      absorb c v (injectLength v s.lenl s.lanes) (scratchChunk (chunkSize v) (fillScratch (chunkSize v) bytes s.t)) s.i := rfl
@[simp] theorem afterTail_t (c : Cfg) (v : Variant) (s : State) (bytes : List Byte) :
    (afterTail c v s bytes).t =
      fillScratch (chunkSize v) bytes s.t := rfl
@[simp] theorem afterTail_lcmd (c : Cfg) (v : Variant) (s : State) (bytes : List Byte) :
    (afterTail c v s bytes).lcmd =
      s.lcmd := rfl
@[simp] theorem afterTail_opl (c : Cfg) (v : Variant) (s : State) (bytes : List Byte) :
    (afterTail c v s bytes).opl =
      s.opl := rfl
@[simp] theorem afterTail_basel (c : Cfg) (v : Variant) (s : State) (bytes : List Byte) :
    (afterTail c v s bytes).basel =
      s.basel := rfl
@[simp] theorem afterTail_lenl (c : Cfg) (v : Variant) (s : State) (bytes : List Byte) :
    (afterTail c v s bytes).lenl =
      s.lenl := rfl
@[simp] theorem afterTail_mixl (c : Cfg) (v : Variant) (s : State) (bytes : List Byte) :
    (afterTail c v s bytes).mixl =
      s.mixl := rfl
@[simp] theorem afterTail_base (c : Cfg) (v : Variant) (s : State) (bytes : List Byte) :
    (afterTail c v s bytes).base =
      s.base := rfl
@[simp] theorem afterTail_len (c : Cfg) (v : Variant) (s : State) (bytes : List Byte) :
    (afterTail c v s bytes).len =
      s.len := rfl
@[simp] theorem afterTail_mixin (c : Cfg) (v : Variant) (s : State) (bytes : List Byte) :
    (afterTail c v s bytes).mixin =
      s.mixin := rfl
@[simp] theorem afterTail_err (c : Cfg) (v : Variant) (s : State) (bytes : List Byte) :
    (afterTail c v s bytes).err =
      s.err := rfl
@[simp] theorem afterTail_errcode (c : Cfg) (v : Variant) (s : State) (bytes : List Byte) :
    (afterTail c v s bytes).errcode =
      s.errcode := rfl
@[simp] theorem afterTail_out (c : Cfg) (v : Variant) (s : State) (bytes : List Byte) :
    (afterTail c v s bytes).out =
      s.out := rfl
@[simp] theorem afterTail_mem (c : Cfg) (v : Variant) (s : State) (bytes : List Byte) :
    (afterTail c v s bytes).mem =
      s.mem := rfl
@[simp] theorem afterTail_kinds (c : Cfg) (v : Variant) (s : State) (bytes : List Byte) :
    (afterTail c v s bytes).kinds =
      s.kinds := rfl
@[simp] theorem afterTail_agenda (c : Cfg) (v : Variant) (s : State) (bytes : List Byte) :
    (afterTail c v s bytes).agenda =
      s.agenda := rfl
@[simp] theorem afterTail_rdata (c : Cfg) (v : Variant) (s : State) (bytes : List Byte) :
    (afterTail c v s bytes).rdata =
      s.rdata := rfl
@[simp] theorem afterTail_draws (c : Cfg) (v : Variant) (s : State) (bytes : List Byte) :
    (afterTail c v s bytes).draws =
      s.draws := rfl

/-! ### finish -/

@[simp] theorem finish_ph (o : Outs) (s : State) : (finish o s).ph = .done := rfl
@[simp] theorem finish_i (o : Outs) (s : State) : (finish o s).i = s.i := rfl
@[simp] theorem finish_lanes (o : Outs) (s : State) : (finish o s).lanes = s.lanes := rfl
@[simp] theorem finish_t (o : Outs) (s : State) : (finish o s).t = s.t := rfl
@[simp] theorem finish_lcmd (o : Outs) (s : State) : (finish o s).lcmd = s.lcmd := rfl
@[simp] theorem finish_opl (o : Outs) (s : State) : (finish o s).opl = s.opl := rfl
@[simp] theorem finish_basel (o : Outs) (s : State) : (finish o s).basel = s.basel := rfl
@[simp] theorem finish_lenl (o : Outs) (s : State) : (finish o s).lenl = s.lenl := rfl
@[simp] theorem finish_mixl (o : Outs) (s : State) : (finish o s).mixl = s.mixl := rfl
@[simp] theorem finish_base (o : Outs) (s : State) : (finish o s).base = s.base := rfl
@[simp] theorem finish_len (o : Outs) (s : State) : (finish o s).len = s.len := rfl
@[simp] theorem finish_mixin (o : Outs) (s : State) : (finish o s).mixin = s.mixin := rfl
@[simp] theorem finish_err (o : Outs) (s : State) : (finish o s).err = s.err := rfl
@[simp] theorem finish_errcode (o : Outs) (s : State) : (finish o s).errcode = s.errcode := rfl
@[simp] theorem finish_out (o : Outs) (s : State) : (finish o s).out = o := rfl
@[simp] theorem finish_mem (o : Outs) (s : State) : (finish o s).mem = s.mem := rfl
@[simp] theorem finish_kinds (o : Outs) (s : State) : (finish o s).kinds = s.kinds := rfl
@[simp] theorem finish_agenda (o : Outs) (s : State) : (finish o s).agenda = s.agenda := rfl
@[simp] theorem finish_rdata (o : Outs) (s : State) : (finish o s).rdata = s.rdata := rfl
@[simp] theorem finish_draws (o : Outs) (s : State) : (finish o s).draws = s.draws := rfl

end Sys2Proof.Machine
end

