-- ==== Sys2Proof/Laws/Memory.lean ====
section
/-! SUPPORT. The laws of the sparse memory: read after write, the canonical form, and the engine's reads. -/

namespace Sys2Proof.Machine

open Sys2Proof

variable {α : Type} {d v : α} {a x : Nat} {m : List (Nat × α)}

/-! ### Sparse lists -/

@[simp] theorem sparseGet_nil : sparseGet d [] a = d := rfl

theorem sparseGet_eq_default (h : ∀ e ∈ m, e.1 ≠ a) : sparseGet d m a = d := by
  induction m with
  | nil => rfl
  | cons e m ih =>
    simp only [List.mem_cons, forall_eq_or_imp] at h
    simp [sparseGet, h.1, ih h.2]

/-- An address that does not read as the default is listed. -/
theorem mem_of_sparseGet_ne (h : sparseGet d m a ≠ d) : (a, sparseGet d m a) ∈ m := by
  induction m with
  | nil => exact absurd rfl h
  | cons f m ih =>
    obtain ⟨k, w⟩ := f
    simp only [sparseGet] at h ⊢
    split
    · next hk => subst hk; exact List.mem_cons_self
    · next hk => rw [if_neg hk] at h; exact List.mem_cons_of_mem _ (ih h)

variable [DecidableEq α]

theorem sparseWf_tail {e : Nat × α} (h : sparseWf d (e :: m)) : sparseWf d m :=
  ⟨(List.pairwise_cons.mp h.1).2, fun f hf => h.2 f (List.mem_cons_of_mem _ hf)⟩

/-- Reading an address other than the one put. -/
theorem sparseGet_put_other (hx : x ≠ a) : sparseGet d (sparsePut d a v m) x = sparseGet d m x := by
  induction m with
  | nil => simp only [sparsePut]; split <;> simp [sparseGet, hx.symm]
  | cons e m ih =>
    obtain ⟨k, w⟩ := e
    simp only [sparsePut]
    split
    · split <;> simp [sparseGet, hx.symm]
    · split
      · next h => subst h; split <;> simp [sparseGet, hx.symm]
      · simp only [sparseGet, ih]

/-- Reading the address put, in a canonical list. -/
theorem sparseGet_put_same (h : sparseWf d m) : sparseGet d (sparsePut d a v m) a = v := by
  induction m with
  | nil => simp only [sparsePut]; split <;> simp_all [sparseGet]
  | cons e m ih =>
    obtain ⟨k, w⟩ := e
    have hk := (List.pairwise_cons.mp h.1).1
    simp only [sparsePut]
    split
    · next hlt =>
      split
      · next hv =>
        rw [hv]
        refine sparseGet_eq_default ?_
        simp only [List.mem_cons, forall_eq_or_imp]
        exact ⟨by simp; omega, fun e he => by have := hk e he; simp at this; omega⟩
      · simp [sparseGet]
    · split
      · next hlt heq =>
        subst heq
        split
        · next hv =>
          rw [hv]
          exact sparseGet_eq_default fun e he => by have := hk e he; simp at this; omega
        · simp [sparseGet]
      · next hlt hne => simp [sparseGet, Ne.symm hne, ih (sparseWf_tail h)]

theorem mem_sparsePut {e : Nat × α} (he : e ∈ sparsePut d a v m) : e ∈ m ∨ (e = (a, v) ∧ v ≠ d) := by
  induction m with
  | nil =>
    simp only [sparsePut] at he
    split at he <;> simp_all
  | cons f m ih =>
    obtain ⟨k, w⟩ := f
    simp only [sparsePut] at he
    split at he
    · split at he
      · exact .inl he
      · rcases List.mem_cons.mp he with h | h <;> simp_all
    · split at he
      · split at he
        · exact .inl (List.mem_cons_of_mem _ he)
        · rcases List.mem_cons.mp he with h | h <;> simp_all
      · rcases List.mem_cons.mp he with h | h
        · simp_all
        · rcases ih h with h | h <;> simp_all

/-- Every write keeps the canonical form. -/
theorem sparsePut_wf (ha : a < 2 ^ AW) (h : sparseWf d m) : sparseWf d (sparsePut d a v m) := by
  refine ⟨?_, fun e he => ?_⟩
  · induction m with
    | nil => simp only [sparsePut]; split <;> simp
    | cons f m ih =>
      obtain ⟨k, w⟩ := f
      have hk := (List.pairwise_cons.mp h.1).1
      have ht := (List.pairwise_cons.mp h.1).2
      simp only [sparsePut]
      split
      · next hlt =>
        split
        · exact h.1
        · refine List.pairwise_cons.mpr ⟨?_, h.1⟩
          simp only [List.mem_cons, forall_eq_or_imp]
          exact ⟨hlt, fun e he => Nat.lt_trans hlt (hk e he)⟩
      · split
        · next hlt heq =>
          subst heq
          split
          · exact ht
          · exact List.pairwise_cons.mpr ⟨hk, ht⟩
        · next hlt hne =>
          refine List.pairwise_cons.mpr ⟨fun e he => ?_, ih (sparseWf_tail h)⟩
          rcases mem_sparsePut he with he | ⟨rfl, -⟩
          · exact hk e he
          · simp; omega
  · rcases mem_sparsePut he with he | ⟨rfl, hv⟩
    · exact h.2 e he
    · exact ⟨ha, hv⟩

/-- An entry of a canonical list is what its address reads as. -/
theorem sparseGet_of_mem {e : Nat × α} (h : sparseWf d m) (he : e ∈ m) : sparseGet d m e.1 = e.2 := by
  induction m with
  | nil => cases he
  | cons f m ih =>
    obtain ⟨k, w⟩ := f
    rcases List.mem_cons.mp he with rfl | he'
    · simp [sparseGet]
    · have := (List.pairwise_cons.mp h.1).1 e he'
      simp only [sparseGet]
      rw [if_neg (by simp at this; omega), ih (sparseWf_tail h) he']

/-! ### The input space -/

theorem memByte_memSet_same {s : State} {a : Addr} {b : Byte} (h : Memory.wf s.mem) :
    memByte (memSet a b s).mem a.toNat = b := sparseGet_put_same h

theorem memByte_memSet_other {s : State} {a : Addr} {b : Byte} {x : Nat} (hx : x ≠ a.toNat) :
    memByte (memSet a b s).mem x = memByte s.mem x := sparseGet_put_other hx

theorem memSet_wf {s : State} {a : Addr} {b : Byte} (h : Memory.wf s.mem) : Memory.wf (memSet a b s).mem :=
  sparsePut_wf a.isLt h

theorem kindSet_wf {s : State} {a : Addr} {k : AddrKind} (h : sparseWf AddrKind.plain s.kinds) :
    sparseWf AddrKind.plain (kindSet a k s).kinds := sparsePut_wf a.isLt h

theorem kindAt_kindSet_same {s : State} {a : Addr} {k : AddrKind} (h : sparseWf AddrKind.plain s.kinds) :
    kindAt (kindSet a k s) a.toNat = k := sparseGet_put_same h

theorem kindAt_kindSet_other {s : State} {a : Addr} {k : AddrKind} {x : Nat} (hx : x ≠ a.toNat) :
    kindAt (kindSet a k s) x = kindAt s x := sparseGet_put_other hx

/-- No launch check fires on a window of plain addresses. -/
theorem windowHas_false_of_answers {s : State} {k : AddrKind} (hk : sparseWf AddrKind.plain s.kinds) (hp : k ≠ .plain)
    (h : answersOn s s.base.toNat (s.base.toNat + s.len.toNat)) : windowHas k s = false := by
  simp only [windowHas, List.any_eq_false]
  intro e he hc
  simp only [Bool.and_eq_true, decide_eq_true_eq] at hc
  have ha := h e.1 hc.1.2 hc.2
  rw [kindAt, sparseGet_of_mem hk he, hc.1.1] at ha
  exact hp ha

/-- An address of the window of that kind fires it. -/
theorem windowHas_true_of_kind {s : State} {k : AddrKind} {a : Nat} (hp : k ≠ .plain) (h1 : s.base.toNat ≤ a)
    (h2 : a < s.base.toNat + s.len.toNat) (h : kindAt s a = k) : windowHas k s = true := by
  have e : sparseGet AddrKind.plain s.kinds a = k := h
  have hm := mem_of_sparseGet_ne (d := AddrKind.plain) (m := s.kinds) (a := a) (by rw [e]; exact hp)
  rw [e] at hm
  simp only [windowHas, List.any_eq_true]
  exact ⟨_, hm, by simp [h1, h2]⟩

/-- A launch check fires only on an address of that kind. -/
theorem windowHas_false_of_kind {s : State} {k : AddrKind} (hk : sparseWf AddrKind.plain s.kinds)
    (h : ∀ a, s.base.toNat ≤ a → a < s.base.toNat + s.len.toNat → kindAt s a ≠ k) : windowHas k s = false := by
  simp only [windowHas, List.any_eq_false]
  intro e he hc
  simp only [Bool.and_eq_true, decide_eq_true_eq] at hc
  exact h e.1 hc.1.2 hc.2 (by rw [kindAt, sparseGet_of_mem hk he, hc.1.1])

/-! ### The engine's reads -/

theorem memRead_plain {s : State} (h1 : a < 2 ^ AW) (h2 : kindAt s a = .plain) :
    memRead s a = .data (memByte s.mem a) := by simp [memRead, h1, h2]

theorem memReads_plain {s : State} {as : List Nat} (h : ∀ a ∈ as, a < 2 ^ AW ∧ kindAt s a = .plain) :
    memReads s as = .data (as.map (memByte s.mem)) := by
  induction as with
  | nil => rfl
  | cons a as ih =>
    simp only [List.mem_cons, forall_eq_or_imp] at h
    simp [memReads, memRead_plain h.1.1 h.1.2, ih h.2]

/-- The reads in order: all are bytes of memory, at addresses of the input space that answer. -/
theorem memReads_data {s : State} {as : List Nat} {bs : List Byte} (h : memReads s as = .data bs) :
    bs = as.map (memByte s.mem) ∧ ∀ a ∈ as, a < 2 ^ AW ∧ kindAt s a = .plain := by
  induction as generalizing bs with
  | nil => cases h; simp
  | cons a as ih =>
    simp only [memReads, memRead] at h
    split at h <;> rename_i hr <;> split at hr <;> try cases hr
    all_goals try cases h
    split at hr <;> cases hr
    split at h <;> cases h
    rename_i hlt _ hkind _ _ hbs
    obtain ⟨rfl, hall⟩ := ih hbs
    simp [hlt, hkind]
    exact hall

/-- U6: an address that never answers, with every address before it plain, decides the reads. -/
theorem memReads_noAnswer {s : State} {before after : List Nat}
    (hb : ∀ b ∈ before, b < 2 ^ AW ∧ kindAt s b = .plain) (ha : a < 2 ^ AW) (hk : kindAt s a = .silent) :
    memReads s (before ++ a :: after) = .noAnswer := by
  induction before with
  | nil => simp [memReads, memRead, ha, hk]
  | cons b before ih =>
    simp only [List.mem_cons, forall_eq_or_imp] at hb
    simp [memReads, memRead_plain hb.1.1 hb.1.2, ih hb.2]

theorem memReads_congr {s u : State} {as : List Nat} (hk : s.kinds = u.kinds)
    (hm : ∀ a ∈ as, memByte s.mem a = memByte u.mem a) : memReads s as = memReads u as := by
  induction as with
  | nil => rfl
  | cons a as ih =>
    simp only [List.mem_cons, forall_eq_or_imp] at hm
    simp only [memReads, memRead, kindAt, hk, hm.1, ih hm.2]

/-- What an engine step over its reads can do, said once. -/
theorem withBytes_next {s t : State} {as : List Nat} {k : List Byte → State} (h : withBytes s as k = .next t) :
    t = s ∨ (t = k (as.map (memByte s.mem)) ∧ ∀ a ∈ as, a < 2 ^ AW ∧ kindAt s a = .plain) := by
  unfold withBytes at h
  split at h <;> cases h
  · next hr => obtain ⟨rfl, hall⟩ := memReads_data hr; exact .inr ⟨rfl, hall⟩
  · exact .inl rfl

theorem withBytes_plain {s : State} {as : List Nat} {k : List Byte → State}
    (h : ∀ a ∈ as, a < 2 ^ AW ∧ kindAt s a = .plain) : withBytes s as k = .next (k (as.map (memByte s.mem))) := by
  simp [withBytes, memReads_plain h]

theorem memReads_ne_outside {s : State} {as : List Nat} (h : ∀ a ∈ as, a < 2 ^ AW) : memReads s as ≠ .outside := by
  induction as with
  | nil => simp [memReads]
  | cons a as ih =>
    simp only [List.mem_cons, forall_eq_or_imp] at h
    have := ih h.2
    simp only [memReads, memRead, h.1, if_true]
    cases kindAt s a <;> simp
    cases hm : memReads s as <;> simp_all

theorem withBytes_ne_fault {s : State} {as : List Nat} {k : List Byte → State} {r : Fault}
    (h : ∀ a ∈ as, a < 2 ^ AW) : withBytes s as k ≠ .fault r := by
  have := memReads_ne_outside (s := s) h
  unfold withBytes
  split <;> simp_all

theorem mem_addrsFrom {n b : Nat} : b ∈ addrsFrom a n ↔ a ≤ b ∧ b < a + n := by
  simp only [addrsFrom, List.mem_map, List.mem_range]
  constructor
  · rintro ⟨k, hk, rfl⟩; omega
  · rintro ⟨h1, h2⟩; exact ⟨b - a, by omega, by omega⟩

@[simp] theorem length_addrsFrom (a n : Nat) : (addrsFrom a n).length = n := by simp [addrsFrom]

theorem addrsFrom_append (a n k : Nat) : addrsFrom a n ++ addrsFrom (a + n) k = addrsFrom a (n + k) := by
  simp [addrsFrom, List.range_add, Function.comp_def, Nat.add_assoc]

theorem drop_addrsFrom {a n k : Nat} (h : k ≤ n) : (addrsFrom a n).drop k = addrsFrom (a + k) (n - k) := by
  obtain ⟨j, rfl⟩ := Nat.exists_eq_add_of_le h
  rw [← addrsFrom_append, List.drop_left' (length_addrsFrom a k), Nat.add_sub_cancel_left]

theorem take_addrsFrom {a n k : Nat} (h : k ≤ n) : (addrsFrom a n).take k = addrsFrom a k := by
  obtain ⟨j, rfl⟩ := Nat.exists_eq_add_of_le h
  rw [← addrsFrom_append, List.take_left' (length_addrsFrom a k)]

end Sys2Proof.Machine
end

