-- ==== Sys2Proof/Laws/Words.lean ====
section
/-! SUPPORT. The laws of the word operations: halves, rotations, little-endian values and fetch. -/

namespace Sys2Proof.Machine

open Sys2Proof

/-! ### Halves -/

theorem toNat_cat32 (hi lo : BitVec 32) : (cat32 hi lo).toNat = hi.toNat * 2 ^ 32 + lo.toNat := by
  have h : (hi ++ lo : BitVec (32 + 32)).toNat = hi.toNat <<< 32 ||| lo.toNat := BitVec.toNat_append hi lo
  rw [← Nat.shiftLeft_add_eq_or_of_lt lo.isLt, Nat.shiftLeft_eq] at h
  exact h

theorem toNat_lo32 (v : Word64) : (lo32 v).toNat = v.toNat % 2 ^ 32 := by simp [lo32]

theorem toNat_hi32 (v : Word64) : (hi32 v).toNat = v.toNat / 2 ^ 32 := by
  have := v.isLt
  simp only [hi32, BitVec.extractLsb'_toNat, Nat.shiftRight_eq_div_pow]
  omega

@[simp] theorem lo32_cat32 (hi lo : BitVec 32) : lo32 (cat32 hi lo) = lo := by
  have := lo.isLt
  apply BitVec.eq_of_toNat_eq
  rw [toNat_lo32, toNat_cat32]
  omega

@[simp] theorem hi32_cat32 (hi lo : BitVec 32) : hi32 (cat32 hi lo) = hi := by
  have := lo.isLt
  apply BitVec.eq_of_toNat_eq
  rw [toNat_hi32, toNat_cat32]
  omega

@[simp] theorem cat32_hi32_lo32 (v : Word64) : cat32 (hi32 v) (lo32 v) = v := by
  apply BitVec.eq_of_toNat_eq
  rw [toNat_cat32, toNat_hi32, toNat_lo32]
  omega

/-- Two 64-bit values with equal halves are equal. -/
theorem eq_of_halves {a b : Word64} (hh : hi32 a = hi32 b) (hl : lo32 a = lo32 b) : a = b := by
  rw [← cat32_hi32_lo32 a, hh, hl, cat32_hi32_lo32]

@[simp] theorem lo32_xor (a b : Word64) : lo32 (a ^^^ b) = lo32 a ^^^ lo32 b := by
  ext k hk; simp [lo32]

@[simp] theorem hi32_xor (a b : Word64) : hi32 (a ^^^ b) = hi32 a ^^^ hi32 b := by
  ext k hk; simp [hi32]

theorem lo32_eq_setWidth (v : Word64) : lo32 v = v.setWidth 32 := by
  ext k hk; simp [lo32]

@[simp] theorem hi32_setWidth (v : BitVec 32) : hi32 (v.setWidth 64) = 0 := by
  ext k hk; simp [hi32]

@[simp] theorem hi32_zero : hi32 0#64 = 0#32 := rfl

/-! ### Rotations -/

theorem rotl_eq_rotateLeft {n r : Nat} (a : BitVec n) (hr : r < n) : rotl a r = a.rotateLeft r := by
  simp only [rotl, BitVec.rotateLeft, Nat.mod_eq_of_lt hr, BitVec.rotateLeftAux]

theorem rotr_eq_rotateRight {n r : Nat} (a : BitVec n) (h0 : 0 < r) (hr : r < n) : rotr a r = a.rotateRight r := by
  have h1 : (n - r) % n = n - r := Nat.mod_eq_of_lt (by omega)
  have h2 : n - (n - r) = r := by omega
  simp only [rotr, rotl, h1, h2, BitVec.rotateRight, Nat.mod_eq_of_lt hr, BitVec.rotateRightAux, BitVec.or_comm]

@[simp] theorem rotl_zero_left (n r : Nat) : rotl 0#n r = 0#n := by simp [rotl]

@[simp] theorem rotr_zero_left (n r : Nat) : rotr 0#n r = 0#n := by simp [rotr]

@[simp] theorem mixer_zero {n : Nat} (k : MixConst n) : mixer k 0#n = 0#n := by simp [mixer]

/-! ### fetch -/

theorem littleEndian_append (xs ys : List Byte) :
    littleEndian (xs ++ ys) = littleEndian xs + 256 ^ xs.length * littleEndian ys := by
  induction xs with
  | nil => simp [littleEndian]
  | cons b xs ih => simp [littleEndian, ih, Nat.pow_succ, Nat.mul_add, Nat.mul_assoc, Nat.mul_left_comm, Nat.add_assoc]

theorem littleEndian_lt (xs : List Byte) : littleEndian xs < 256 ^ xs.length := by
  induction xs with
  | nil => simp [littleEndian]
  | cons b xs ih =>
    have := b.isLt
    simp only [littleEndian, List.length_cons, Nat.pow_succ]
    omega

/-- R90: byte `k` of a little-endian value. -/
theorem littleEndian_byte (xs : List Byte) (k : Nat) (hk : k < xs.length) :
    littleEndian xs / 256 ^ k % 256 = xs[k].toNat := by
  induction xs generalizing k with
  | nil => cases hk
  | cons b xs ih =>
    have hb := b.isLt
    cases k with
    | zero => simp [littleEndian]; omega
    | succ k =>
      have h256 : (b.toNat + 256 * littleEndian xs) / 256 = littleEndian xs := by omega
      rw [littleEndian, Nat.pow_succ', ← Nat.div_div_eq_div_mul, h256]
      exact ih k (by simpa using hk)

end Sys2Proof.Machine
end

