-- ==== Sys2Proof/Laws/Engine.lean ====
section
/-! SUPPORT. What issue, the engine's steps and the host's actions can do, each said once. -/

namespace Sys2Proof.Machine

open Sys2Proof

/-! ### Geometry and opcodes -/

theorem two_pow_AW : 2 ^ AW = 4294967296 := rfl

theorem chunkSize_cases (v : Variant) : chunkSize v = 16 ∨ chunkSize v = 32 := by cases v <;> simp [chunkSize]

@[simp] theorem opField_encode_commandOf (v : Variant) : variantOf (opField (encode (commandOf v))) = some v := by
  cases v <;> decide

/-- R70: which opcodes select a variant. -/
theorem variantOf_eq_some {o : BitVec 3} {v : Variant} (h : variantOf o = some v) :
    o = opField (encode (commandOf v)) := by revert h; cases v <;> revert o <;> decide

theorem commandOf_inj {v w : Variant} (h : commandOf v = commandOf w) : v = w := by
  revert h; cases v <;> cases w <;> decide

/-- Every instruction is the command of a variant or a mixer test command. -/
theorem instr_cases (i : Instr) : (∃ v, i = commandOf v) ∨ i = .mix32 ∨ i = .mix64 := by
  cases i
  · exact .inl ⟨.hash32, rfl⟩
  · exact .inl ⟨.hash64, rfl⟩
  · exact .inl ⟨.hash128, rfl⟩
  · exact .inl ⟨.hash256, rfl⟩
  · exact .inr (.inl rfl)
  · exact .inr (.inr rfl)

/-! ### The loop count -/

theorem nFull_zero (v : Variant) : nFull v 0 = 0 := rfl

/-- R118: after the loop 1 to C bytes are left, for L >= 1. -/
theorem nFull_bounds (v : Variant) {n : Nat} (h : 1 ≤ n) :
    nFull v n * chunkSize v + 1 ≤ n ∧ n ≤ nFull v n * chunkSize v + chunkSize v := by
  have h0 : n ≠ 0 := by omega
  rw [nFull, if_neg h0]
  rcases chunkSize_cases v with hc | hc <;> rw [hc] <;> omega

theorem nFull_mul_le (v : Variant) (n : Nat) : nFull v n * chunkSize v ≤ n := by
  rcases Nat.eq_zero_or_pos n with rfl | h
  · simp [nFull]
  · have := (nFull_bounds v h).1; omega

theorem nFull_pos {v : Variant} {n : Nat} (h : chunkSize v < n) : 1 ≤ nFull v n := by
  have h0 : n ≠ 0 := by omega
  rw [nFull, if_neg h0]
  rcases chunkSize_cases v with hc | hc <;> rw [hc] at h ⊢ <;> omega

theorem nFull_eq_zero {v : Variant} {n : Nat} (h : n ≤ chunkSize v) : nFull v n = 0 := by
  rw [nFull]
  split
  · rfl
  · rcases chunkSize_cases v with hc | hc <;> rw [hc] at h ⊢ <;> omega

/-- R24: I + C does not wrap while it stays below 2^AW. -/
theorem toNat_add_chunk {v : Variant} {i : Addr} (h : i.toNat + chunkSize v < 2 ^ AW) :
    (i + BitVec.ofNat AW (chunkSize v)).toNat = i.toNat + chunkSize v := by
  rw [two_pow_AW] at h
  simp only [BitVec.toNat_add, BitVec.toNat_ofNat, two_pow_AW]
  omega

/-- R134: L - C does not wrap for L >= C. -/
theorem toNat_sub_chunk {v : Variant} {len : Addr} (h : chunkSize v ≤ len.toNat) :
    (len - BitVec.ofNat AW (chunkSize v)).toNat = len.toNat - chunkSize v := by
  have hlt := len.isLt
  rw [two_pow_AW] at hlt
  simp only [BitVec.toNat_sub, BitVec.toNat_ofNat, two_pow_AW]
  omega

theorem ofNat_sub_chunk {v : Variant} {len : Addr} (h : chunkSize v ≤ len.toNat) :
    BitVec.ofNat AW (len.toNat - chunkSize v) = len - BitVec.ofNat AW (chunkSize v) := by
  rw [← toNat_sub_chunk h, BitVec.ofNat_toNat, BitVec.setWidth_eq]

/-! ### Issue -/

/-- R160: what the issue of a hash command can do. -/
theorem issueHash_next {c : Cfg} {v : Variant} {s t : State} (h : issueHash c v s = .next t) :
    (s.busy = true ∧ t = refuse .busyCmd s) ∨
    (s.busy = false ∧ 2 ^ AW < s.base.toNat + s.len.toNat ∧ t = refuse .range s) ∨
    (s.busy = false ∧ s.base.toNat + s.len.toNat ≤ 2 ^ AW ∧
      (windowHas .sideEffects s = false ∧ windowHas .silent s = false) ∧ t = acceptHash c v s) := by
  unfold issueHash at h
  split at h
  · next hb => cases h; exact .inl ⟨hb, rfl⟩
  · next hb =>
    split at h
    · next hr =>
      cases h
      exact .inr (.inl ⟨by simpa using hb, by simpa only [outOfRange, decide_eq_true_eq] using hr, rfl⟩)
    · next hr =>
      split at h
      · cases h
      next hs =>
      split at h <;> cases h
      next hq =>
      refine .inr (.inr ⟨by simpa using hb, ?_, ⟨by simpa using hs, by simpa using hq⟩, rfl⟩)
      have : ¬ 2 ^ AW < s.base.toNat + s.len.toNat := by
        simpa only [outOfRange, decide_eq_true_eq] using hr
      omega

/-- R160: what the issue of a mixer test command can do. -/
theorem issueMix_next {i : Instr} {s t : State} (h : issueMix i s = .next t) :
    (s.busy = true ∧ t = refuse .busyCmd s) ∨ (s.busy = false ∧ t = acceptMix i s) := by
  unfold issueMix at h
  split at h <;> cases h
  · next hb => exact .inl ⟨hb, rfl⟩
  · next hb => exact .inr ⟨by simpa using hb, rfl⟩

theorem exec_commandOf (v : Variant) (s : State) : exec (commandOf v) s = issueHash Config.cfg v s := by
  cases v <;> rfl

theorem exec_mix {i : Instr} (h : i = .mix32 ∨ i = .mix64) (s : State) : exec i s = issueMix i s := by
  rcases h with rfl | rfl <;> rfl

theorem issueHash_accepts {c : Cfg} {v : Variant} {s : State} (hb : s.busy = false)
    (hr : s.base.toNat + s.len.toNat ≤ 2 ^ AW)
    (hs : windowHas .sideEffects s = false ∧ windowHas .silent s = false) :
    issueHash c v s = .next (acceptHash c v s) := by
  have : outOfRange s = false := by simp only [outOfRange, decide_eq_false_iff_not]; omega
  simp [issueHash, hb, this, hs.1, hs.2]

/-- R58 (a), R57: the launch checks pass on a window that answers. -/
theorem launch_of_answers {s : State} (hk : sparseWf AddrKind.plain s.kinds)
    (h : answersOn s s.base.toNat (s.base.toNat + s.len.toNat)) :
    windowHas .sideEffects s = false ∧ windowHas .silent s = false :=
  ⟨windowHas_false_of_answers hk (by decide) h, windowHas_false_of_answers hk (by decide) h⟩

theorem issueMix_accepts {i : Instr} {s : State} (hb : s.busy = false) :
    issueMix i s = .next (acceptMix i s) := by simp [issueMix, hb]

/-- What exec can do: a refusal of BUSY_CMD or RANGE, or the acceptance of a command. -/
theorem exec_next {i : Instr} {s t : State} (h : exec i s = .next t) :
    (s.busy = true ∧ t = refuse .busyCmd s) ∨
    (s.busy = false ∧ t = refuse .range s) ∨
    (s.busy = false ∧ ∃ v, i = commandOf v ∧ s.base.toNat + s.len.toNat ≤ 2 ^ AW ∧
      (windowHas .sideEffects s = false ∧ windowHas .silent s = false) ∧ t = acceptHash Config.cfg v s) ∨
    (s.busy = false ∧ (i = .mix32 ∨ i = .mix64) ∧ t = acceptMix i s) := by
  rcases instr_cases i with ⟨v, rfl⟩ | hm
  · rw [exec_commandOf] at h
    rcases issueHash_next h with h | ⟨hb, -, ht⟩ | ⟨hb, hr, hs, ht⟩
    · exact .inl h
    · exact .inr (.inl ⟨hb, ht⟩)
    · exact .inr (.inr (.inl ⟨hb, v, rfl, hr, hs, ht⟩))
  · rw [exec_mix hm] at h
    rcases issueMix_next h with h | ⟨hb, ht⟩
    · exact .inl h
    · exact .inr (.inr (.inr ⟨hb, hm, ht⟩))

theorem exec_ne_fault {i : Instr} {s : State} {r : Fault} : exec i s ≠ .fault r := by
  rcases instr_cases i with ⟨v, rfl⟩ | hm
  · rw [exec_commandOf, issueHash]
    split
    · simp
    · split
      · simp
      · split
        · simp
        · split <;> simp
  · rw [exec_mix hm, issueMix]; split <;> simp

/-! ### The engine's steps -/

/-- What an engine step can do: nothing (none enabled, or a read not answered), or the step of the phase over the
bytes it reads. -/
theorem engineStep_next {c : Cfg} {s t : State} (h : engineStep c s = .next t) :
    t = s ∨
    (∃ v, s.ph = .term ∧ variantOf s.opl = some v ∧ chunkSize v < s.lenl.toNat ∧
      t = afterTerm c v s ((termAddrs v s).map (memByte s.mem))) ∨
    (∃ v, s.ph = .loop ∧ variantOf s.opl = some v ∧
      s.i.toNat + chunkSize v ≤ nFull v s.lenl.toNat * chunkSize v ∧
      t = afterLoop c v s ((loopAddrs v s).map (memByte s.mem))) ∨
    (∃ v, s.ph = .tail ∧ variantOf s.opl = some v ∧ s.i.toNat = nFull v s.lenl.toNat * chunkSize v ∧
      t = afterTail c v s ((tailAddrs s).map (memByte s.mem))) ∨
    (∃ v, s.ph = .final ∧ variantOf s.opl = some v ∧ t = finish (finalOuts c v s.lanes) s) ∨
    (s.ph = .mixp ∧ s.opl = 0b100 ∧ t = finish (mix32Outs c s.mixl) s) ∨
    (s.ph = .mixp ∧ s.opl = 0b101 ∧ t = finish (mix64Outs c s.mixl) s) := by
  unfold engineStep at h
  split at h
  · cases h; exact .inl rfl
  · next hp =>
    simp only [stepTerm] at h
    split at h
    · cases h
    · next v hv =>
      split at h
      · next hg =>
        rcases withBytes_next h with h | ⟨h, -⟩
        · exact .inl h
        · exact .inr (.inl ⟨v, hp, hv, hg, h⟩)
      · cases h
  · next hp =>
    simp only [stepLoop] at h
    split at h
    · cases h
    · next v hv =>
      split at h
      · next hg =>
        rcases withBytes_next h with h | ⟨h, -⟩
        · exact .inl h
        · exact .inr (.inr (.inl ⟨v, hp, hv, hg, h⟩))
      · cases h
  · next hp =>
    simp only [stepTail] at h
    split at h
    · cases h
    · next v hv =>
      split at h
      · next hg =>
        rcases withBytes_next h with h | ⟨h, -⟩
        · exact .inl h
        · exact .inr (.inr (.inr (.inl ⟨v, hp, hv, hg, h⟩)))
      · cases h
  · next hp =>
    simp only [stepFinal] at h
    split at h
    · cases h
    · next v hv => cases h; exact .inr (.inr (.inr (.inr (.inl ⟨v, hp, hv, rfl⟩))))
  · next hp =>
    simp only [stepMixp] at h
    split at h
    · next ho => cases h; exact .inr (.inr (.inr (.inr (.inr (.inl ⟨hp, ho, rfl⟩)))))
    · split at h
      · next ho => cases h; exact .inr (.inr (.inr (.inr (.inr (.inr ⟨hp, ho, rfl⟩)))))
      · cases h
  · cases h; exact .inl rfl

/-- The TERM step when its window answers. -/
theorem engineStep_term {c : Cfg} {s : State} {v : Variant} (hp : s.ph = .term) (hv : variantOf s.opl = some v)
    (hg : chunkSize v < s.lenl.toNat) (h : ∀ a ∈ termAddrs v s, a < 2 ^ AW ∧ kindAt s a = .plain) :
    engineStep c s = .next (afterTerm c v s ((termAddrs v s).map (memByte s.mem))) := by
  simp only [engineStep, hp, stepTerm, hv, hg, if_true, withBytes_plain h]

/-- A LOOP step when its window answers. -/
theorem engineStep_loop {c : Cfg} {s : State} {v : Variant} (hp : s.ph = .loop) (hv : variantOf s.opl = some v)
    (hg : s.i.toNat + chunkSize v ≤ nFull v s.lenl.toNat * chunkSize v)
    (h : ∀ a ∈ loopAddrs v s, a < 2 ^ AW ∧ kindAt s a = .plain) :
    engineStep c s = .next (afterLoop c v s ((loopAddrs v s).map (memByte s.mem))) := by
  simp only [engineStep, hp, stepLoop, hv, hg, if_true, withBytes_plain h]

/-- The TAIL step when its window answers. -/
theorem engineStep_tail {c : Cfg} {s : State} {v : Variant} (hp : s.ph = .tail) (hv : variantOf s.opl = some v)
    (hg : s.i.toNat = nFull v s.lenl.toNat * chunkSize v)
    (h : ∀ a ∈ tailAddrs s, a < 2 ^ AW ∧ kindAt s a = .plain) :
    engineStep c s = .next (afterTail c v s ((tailAddrs s).map (memByte s.mem))) := by
  simp only [engineStep, hp, stepTail, hv, hg, if_true, withBytes_plain h]

theorem engineStep_final {c : Cfg} {s : State} {v : Variant} (hp : s.ph = .final) (hv : variantOf s.opl = some v) :
    engineStep c s = .next (finish (finalOuts c v s.lanes) s) := by
  simp only [engineStep, hp, stepFinal, hv]

/-! ### The host's actions -/

/-- A register read changes at most the count of draws. -/
theorem regRead_state (n : Nat) (s : State) :
    (regRead n s).2 = s ∨ (regRead n s).2 = { s with draws := s.draws + 1 } := by
  unfold regRead
  split <;> first | exact .inl rfl | (unfold outRead; split; exact .inl rfl; exact .inr rfl)

/-- What a host read does to the state. -/
theorem hostRead_eq (n : Nat) (s : State) :
    hostRead n s = { (regRead n s).2 with rdata := (regRead n s).1 } := rfl

/-- What a command write can do. -/
theorem commandWrite_next {v : Word64} {s t : State} (h : commandWrite v s = .next t) :
    (s.busy = true ∧ t = refuse .busyCmd s) ∨
    (s.busy = false ∧ ((∃ e, decode v = .error e) ∧ t = refuse .illegalCmd s ∨
      ∃ i, decode v = .ok i ∧ exec i s = .next t)) := by
  unfold commandWrite at h
  split at h
  · next hb => cases h; exact .inl ⟨hb, rfl⟩
  · next hb =>
    refine .inr ⟨by simpa using hb, ?_⟩
    split at h
    · next i hd => exact .inr ⟨i, hd, h⟩
    · next e hd => cases h; exact .inl ⟨⟨e, hd⟩, rfl⟩

/-- What a write of a register other than CMD does. -/
theorem plainWrite_cases (n : Nat) (v : Word64) (s : State) :
    (n = 1 ∧ plainWrite n v s = clearErr s) ∨ (n = 2 ∧ plainWrite n v s = { s with base := v.setWidth AW }) ∨
    (n = 3 ∧ plainWrite n v s = { s with len := v.setWidth AW }) ∨
    (n = 4 ∧ plainWrite n v s = { s with mixin := v }) ∨ plainWrite n v s = s := by
  unfold plainWrite
  split
  · unfold statusWrite; split
    · exact .inl ⟨rfl, rfl⟩
    · exact .inr (.inr (.inr (.inr rfl)))
  · exact .inr (.inl ⟨rfl, rfl⟩)
  · exact .inr (.inr (.inl ⟨rfl, rfl⟩))
  · exact .inr (.inr (.inr (.inl ⟨rfl, rfl⟩)))
  · exact .inr (.inr (.inr (.inr rfl)))

/-- What a host action can do: act on the command register, or change at most the host's registers, memory, the kinds
of addresses, the read data, the draws and the agenda. -/
theorem hostStep_next {a : HostAct} {s t : State} (h : hostStep a s = .next t) :
    (∃ v, a = .regWrite 0 v ∧ commandWrite v s = .next t) ∨
    (∃ n v, a = .regWrite n v ∧ n ≠ 0 ∧ t = plainWrite n v s) ∨
    (∃ x b, a = .memWrite x b ∧ t = memSet x b s) ∨
    (∃ x k, a = .setKind x k ∧ t = kindSet x k s) ∨
    ((a = .wait ∨ (∃ n, a = .regRead n) ∨ ∃ x, a = .memRead x) ∧
      ∃ w d ag, t = { s with rdata := w, draws := d, agenda := ag } ∧
        (ag = s.agenda ∨ ag = .engine :: .host .wait :: s.agenda)) := by
  cases a with
  | regRead n =>
    cases h
    refine .inr (.inr (.inr (.inr ⟨.inr (.inl ⟨n, rfl⟩), ?_⟩)))
    rcases regRead_state n s with hr | hr <;> rw [hostRead_eq, hr] <;> exact ⟨_, _, _, rfl, .inl rfl⟩
  | regWrite n v =>
    simp only [hostStep, regWrite] at h
    split at h
    · next h0 => subst h0; exact .inl ⟨v, rfl, h⟩
    · next h0 => cases h; exact .inr (.inl ⟨n, v, rfl, h0, rfl⟩)
  | wait =>
    cases h
    refine .inr (.inr (.inr (.inr ⟨.inl rfl, ?_⟩)))
    unfold hostWait
    split <;> rcases regRead_state 1 s with hr | hr <;> rw [hostRead_eq, hr]
    · exact ⟨_, _, _, rfl, .inl rfl⟩
    · exact ⟨_, _, _, rfl, .inl rfl⟩
    · exact ⟨_, _, _, rfl, .inr rfl⟩
    · exact ⟨_, _, _, rfl, .inr rfl⟩
  | memRead x =>
    cases h
    refine .inr (.inr (.inr (.inr ⟨.inr (.inr ⟨x, rfl⟩), ?_⟩)))
    unfold hostMemRead
    split <;> exact ⟨_, _, _, rfl, .inl rfl⟩
  | memWrite x b => cases h; exact .inr (.inr (.inl ⟨x, b, rfl, rfl⟩))
  | setKind x k => cases h; exact .inr (.inr (.inr (.inl ⟨x, k, rfl, rfl⟩)))

/-- What a step of the machine can do. -/
theorem step_next {s t : State} (h : step s = .next t) :
    (∃ rest, (s.agenda = [] ∧ rest = [] ∨ s.agenda = .engine :: rest) ∧
      engineStep Config.cfg (setAgenda rest s) = .next t) ∨
    (∃ a rest, s.agenda = .host a :: rest ∧ hostStep a (setAgenda rest s) = .next t) ∨
    (∃ rest, s.agenda = .reset :: rest ∧ t = resetEvent (setAgenda rest s)) := by
  unfold step at h
  split at h
  · next ha =>
    refine .inl ⟨[], .inl ⟨ha, rfl⟩, ?_⟩
    rw [← ha]; exact h
  · next rest ha => exact .inl ⟨rest, .inr ha, h⟩
  · next a rest ha => exact .inr (.inl ⟨a, rest, ha, h⟩)
  · next rest ha => cases h; exact .inr (.inr ⟨rest, ha, rfl⟩)

end Sys2Proof.Machine
end

