-- ==== Sys2Proof/Laws/PerInstr.lean ====
section
/-! SUPPORT. The family of statements made instruction by instruction: each command is well-formed, its word has a zero
ZERO field, no reserved OP, and decodes to that command and to no other (30_encoding.md R70 to R74). -/

namespace Sys2Proof.Laws.Encoding

/-- R70 to R73: the word of a command is legal, and decodes to the command, through the table numbering too. -/
def Statement (i : Instr) : Prop :=
  i.wellFormed = true ∧ zeroField (encode i) = 0 ∧ opField (encode i) ≠ 6 ∧ opField (encode i) ≠ 7 ∧
    decode (encode i) = .ok i ∧ decodeTableWord 64 (encode i).toNat = some i

theorem hash32 : Statement .hash32 := by unfold Statement; decide

theorem hash64 : Statement .hash64 := by unfold Statement; decide

theorem hash128 : Statement .hash128 := by unfold Statement; decide

theorem hash256 : Statement .hash256 := by unfold Statement; decide

theorem mix32 : Statement .mix32 := by unfold Statement; decide

theorem mix64 : Statement .mix64 := by unfold Statement; decide

end Sys2Proof.Laws.Encoding
end

