-- ==== Sys2Proof/Laws/Runs.lean ====
section
/-! SUPPORT. Steps and runs by what is on the agenda, the remaining steps of a command by its phase, and the forms of a
refusal and of an acceptance that later proofs cite. -/

namespace Sys2Proof.Machine

open Sys2Proof

/-! ### Steps and runs -/

theorem step_of_empty {s : State} (h : s.agenda = []) : step s = engineStep Config.cfg s := by simp [step, h]

theorem step_of_engine {s : State} {rest : List Turn} (h : s.agenda = .engine :: rest) :
    step s = engineStep Config.cfg (setAgenda rest s) := by simp [step, h]

theorem step_of_host {s : State} {a : HostAct} {rest : List Turn} (h : s.agenda = .host a :: rest) :
    step s = hostStep a (setAgenda rest s) := by simp [step, h]

theorem step_of_reset {s : State} {rest : List Turn} (h : s.agenda = .reset :: rest) :
    step s = .next (resetEvent (setAgenda rest s)) := by simp [step, h]

theorem run_of_step {n : Nat} {s t : State} (h : step s = .next t) :
    Host.Core.run Sys2Proof.core (n + 1) s = Host.Core.run Sys2Proof.core n t := by
  have h' : Sys2Proof.core.step s = .next t := h
  simp only [Host.Core.run, h']

/-- A run in two parts. -/
theorem run_append {n m : Nat} {s t : State} (h : Host.Core.run Sys2Proof.core n s = .next t) :
    Host.Core.run Sys2Proof.core (n + m) s = Host.Core.run Sys2Proof.core m t := by
  induction n generalizing s with
  | zero => cases h; rw [Nat.zero_add]
  | succ n ih =>
    rw [Nat.add_right_comm]
    cases hs : step s with
    | next w => rw [run_of_step hs] at h ⊢; exact ih h
    | fault r =>
      have h' : Sys2Proof.core.step s = .fault r := hs
      simp only [Host.Core.run, h'] at h
      cases h
    | refused r =>
      have h' : Sys2Proof.core.step s = .refused r := hs
      simp only [Host.Core.run, h'] at h
      cases h

/-! ### Phases -/

theorem isDone_iff {s : State} : s.isDone = true ↔ s.ph = .done := by cases hp : s.ph <;> simp [State.isDone, hp]

theorem busy_of_hashing {s : State} (h : s.hashing = true) : s.busy = true := by
  cases hp : s.ph <;> simp_all [State.hashing, State.busy]

theorem chunkSize_pos (v : Variant) : 0 < chunkSize v := by cases v <;> decide

theorem remainingSteps_term {s : State} {v : Variant} (hp : s.ph = .term) (hv : variantOf s.opl = some v) :
    remainingSteps s = nFull v s.lenl.toNat + 3 := by simp [remainingSteps, hp, hv]

theorem remainingSteps_loop {s : State} {v : Variant} (hp : s.ph = .loop) (hv : variantOf s.opl = some v) :
    remainingSteps s = nFull v s.lenl.toNat - s.i.toNat / chunkSize v + 2 := by simp [remainingSteps, hp, hv]

theorem remainingSteps_tail {s : State} {v : Variant} (hp : s.ph = .tail) (hv : variantOf s.opl = some v) :
    remainingSteps s = 2 := by simp [remainingSteps, hp, hv]

theorem remainingSteps_final {s : State} {v : Variant} (hp : s.ph = .final) (hv : variantOf s.opl = some v) :
    remainingSteps s = 1 := by simp [remainingSteps, hp, hv]

theorem remainingSteps_done {s : State} (hp : s.ph = .done) : remainingSteps s = 0 := by
  simp only [remainingSteps, hp]; split <;> rfl

/-- The latches of a hash phase, by the variant its opcode selects. -/
theorem latches_of_inv {s : State} {v : Variant} (hi : s.Inv) (hh : s.hashing = true)
    (hv : variantOf s.opl = some v) : HashLatches v s := by
  obtain ⟨w, hw, hl⟩ := hi.hashLatches hh
  rw [hv] at hw
  cases hw
  exact hl

/-- R163: I + C does not wrap in a LOOP step. -/
theorem toNat_loop_offset {s : State} {v : Variant}
    (h : s.i.toNat + chunkSize v ≤ nFull v s.lenl.toNat * chunkSize v) :
    (s.i + BitVec.ofNat AW (chunkSize v)).toNat = s.i.toNat + chunkSize v := by
  have h1 := nFull_mul_le v s.lenl.toNat
  have h2 := s.lenl.isLt
  exact toNat_add_chunk (by omega)

/-! ### Refusal and acceptance -/

/-- R184, in one record. -/
theorem refuse_eq (r : RefusalCode) (s : State) :
    refuse r s = { s with err := true, errcode := if s.err then s.errcode else r.code } := by
  unfold refuse
  split
  · next h => cases s; simp_all
  · next h => simp

/-- R160: the phase a hash command is accepted into. -/
theorem acceptHash_phase (c : Cfg) (v : Variant) (s : State) :
    (acceptHash c v s).ph = .term ∧ chunkSize v < s.len.toNat ∨
    (acceptHash c v s).ph = .tail ∧ s.len.toNat ≤ chunkSize v := by
  by_cases h : chunkSize v < s.len.toNat
  · exact .inl ⟨by simp [acceptHash, h], h⟩
  · exact .inr ⟨by simp [acceptHash, h], by omega⟩

end Sys2Proof.Machine
end

