-- ==== Sys2Proof/Tests/Slice0.lean ====
section
/-! SUPPORT. Tests and witnesses. Expected values come from the spec: words from the bits of 30_encoding.md R70,
numbers from 95_test_vectors.md. The `witness_` theorems show, for each statement with hypotheses, concrete states and
operands that meet them together. -/

namespace Sys2Proof.Tests

open Sys2Proof Sys2Proof.Machine

/-! ### Decoding: words written bit by bit (R70: ZERO 63:3, TEST 2, SPREAD 1, WSEL 0) -/

theorem test_decode_hash32 : decode (0#61 ++ 0b0#1 ++ 0b0#1 ++ 0b0#1) = .ok .hash32 := by decide

theorem test_decode_hash64 : decode (0#61 ++ 0b0#1 ++ 0b0#1 ++ 0b1#1) = .ok .hash64 := by decide

theorem test_decode_hash128 : decode (0#61 ++ 0b0#1 ++ 0b1#1 ++ 0b0#1) = .ok .hash128 := by decide

theorem test_decode_hash256 : decode (0#61 ++ 0b0#1 ++ 0b1#1 ++ 0b1#1) = .ok .hash256 := by decide

theorem test_decode_mix32 : decode (0#61 ++ 0b1#1 ++ 0b0#1 ++ 0b0#1) = .ok .mix32 := by decide

theorem test_decode_mix64 : decode (0#61 ++ 0b1#1 ++ 0b0#1 ++ 0b1#1) = .ok .mix64 := by decide

/-- R73: both reserved opcodes, the lowest and the highest bit of ZERO, and bit 32 (section 2.8). -/
theorem test_decode_illegal :
    decode 6 = .error .reservedOp ∧ decode 7 = .error .reservedOp ∧ decode 8 = .error .zeroFieldSet ∧
    decode 0x8000000000000000 = .error .zeroFieldSet ∧ decode 0x100000001 = .error .zeroFieldSet := by decide

theorem test_decodeTableWord :
    decodeTableWord 64 3 = some .hash256 ∧ decodeTableWord 64 6 = none ∧ decodeTableWord 8 5 = some .mix64 := by decide

/-! ### Well-formedness: every check refuses an ill-formed term (R9, R72) -/

theorem test_wellFormed_ref : Cfg.ref.wellFormed = true := by decide

theorem test_wellFormed_instr : ∀ i : Instr, i.wellFormed = true := by intro i; cases i <;> rfl

theorem test_illFormed_mixers :
    ({ Cfg.refMix32 with k1 := 2 } : MixConst 32).wellFormed = false ∧
    ({ Cfg.refMix32 with s1 := 0 } : MixConst 32).wellFormed = false ∧
    ({ Cfg.refMix32 with s2 := 32 } : MixConst 32).wellFormed = false ∧
    ({ Cfg.refMix32 with s3 := 0 } : MixConst 32).wellFormed = false ∧
    ({ Cfg.refMix32 with s4 := 32 } : MixConst 32).wellFormed = false ∧
    ({ Cfg.refMix64 with k1 := 2 } : MixConst 64).wellFormed = false ∧
    ({ Cfg.refMix64 with s1 := 64 } : MixConst 64).wellFormed = false ∧
    ({ Cfg.refMix64 with k2 := 2, s1 := 63 } : MixConst 64).wellFormed = true := by decide

theorem test_illFormed_uniform :
    ({ Cfg.refV32 with p0 := 2 } : UniformConst 32).wellFormed = false ∧
    ({ Cfg.refV32 with p1 := 2 } : UniformConst 32).wellFormed = false ∧
    ({ Cfg.refV32 with p2 := 2 } : UniformConst 32).wellFormed = false ∧
    ({ Cfg.refV32 with p3 := 2 } : UniformConst 32).wellFormed = false ∧
    ({ Cfg.refV32 with r0 := 0 } : UniformConst 32).wellFormed = false ∧
    ({ Cfg.refV32 with r1 := 32 } : UniformConst 32).wellFormed = false ∧
    ({ Cfg.refV32 with r2 := 0 } : UniformConst 32).wellFormed = false ∧
    ({ Cfg.refV64 with r3 := 64 } : UniformConst 64).wellFormed = false := by decide

theorem test_illFormed_double :
    ({ Cfg.refV256 with q0 := 2 } : DoubleConst).wellFormed = false ∧
    ({ Cfg.refV256 with q1 := 2 } : DoubleConst).wellFormed = false ∧
    ({ Cfg.refV256 with q2 := 2 } : DoubleConst).wellFormed = false ∧
    ({ Cfg.refV256 with q3 := 2 } : DoubleConst).wellFormed = false ∧
    ({ Cfg.refV256 with q4 := 2 } : DoubleConst).wellFormed = false ∧
    ({ Cfg.refV256 with q5 := 2 } : DoubleConst).wellFormed = false ∧
    ({ Cfg.refV256 with r0 := 32 } : DoubleConst).wellFormed = false ∧
    ({ Cfg.refV256 with r1 := 0 } : DoubleConst).wellFormed = false ∧
    ({ Cfg.refV256 with r2 := 64 } : DoubleConst).wellFormed = false ∧
    ({ Cfg.refV256 with r3 := 0 } : DoubleConst).wellFormed = false := by decide

theorem test_illFormed_record :
    ({ Cfg.ref with mix32 := { Cfg.refMix32 with s1 := 0 } } : Cfg).wellFormed = false ∧
    ({ Cfg.ref with mix64 := { Cfg.refMix64 with s1 := 0 } } : Cfg).wellFormed = false ∧
    ({ Cfg.ref with v32 := { Cfg.refV32 with r0 := 0 } } : Cfg).wellFormed = false ∧
    ({ Cfg.ref with v64 := { Cfg.refV64 with r0 := 0 } } : Cfg).wellFormed = false ∧
    ({ Cfg.ref with v256 := { Cfg.refV256 with r0 := 0 } } : Cfg).wellFormed = false := by decide

/-! ### The states of the tests -/

/-- The lanes after a step. -/
def lanesOf : Host.Outcome State Fault Refusal → Option Lanes
  | .next s => some s.lanes
  | .fault _ => none
  | .refused _ => none

/-- The output registers after a step. -/
def outOf : Host.Outcome State Fault Refusal → Option Outs
  | .next s => some s.out
  | .fault _ => none
  | .refused _ => none

/-- STATUS after a step. -/
def statusOf : Host.Outcome State Fault Refusal → Option Word64
  | .next s => some (statusWord s)
  | .fault _ => none
  | .refused _ => none

/-- Program P1: "hello" at 0x1000, registers written, IDLE. -/
def hello : State :=
  { State.reset with
    mem := [(0x1000, 0x68), (0x1001, 0x65), (0x1002, 0x6C), (0x1003, 0x6C), (0x1004, 0x6F)]
    base := 0x1000
    len := 5 }

/-- Program P1 in phase TAIL of HASH128. -/
def helloTail : State :=
  { hello with ph := .tail, lcmd := 2, opl := 2, basel := 0x1000, lenl := 5, lanes := seeds Config.cfg .hash128 }

/-- Program P4: 33 bytes, byte k = k, at 0x100 (byte 0 is 0 and so unlisted), IDLE. -/
def counting : State :=
  { State.reset with
    mem := (List.range 32).map fun k => (0x101 + k, BitVec.ofNat 8 (k + 1))
    base := 0x100
    len := 33 }

/-- Program P4 in phase TERM of HASH256. -/
def countingTerm : State :=
  { counting with ph := .term, lcmd := 3, opl := 3, basel := 0x100, lenl := 33, lanes := seeds Config.cfg .hash256 }

/-- Program P4 in phase LOOP. The lanes are those of its trace. -/
def countingLoop : State :=
  { countingTerm with
    ph := .loop
    lanes := ⟨0xFAFC19A47842005C, 0x9E8424C3C8E418D2, 0xB9B78C1189779D86, 0x14B3D208624E9169⟩ }

/-- Program P4 in phase TAIL. The lanes are those of its trace. -/
def countingTail : State :=
  { countingTerm with
    ph := .tail
    i := 32
    lanes := ⟨0x7B489F314B848D0C, 0xF593B6712A790A8D, 0xDBB7CDB913C3F576, 0xAAE51D03A762BC8B⟩ }

/-- Program P4 in phase FINAL. -/
def countingFinal : State :=
  { countingTail with
    ph := .final
    lanes := ⟨0x8CA6A3F89AF601CA, 0x7B125C615F2245CF, 0xF35DF6F163A6933C, 0xDB929D8AA6027EAB⟩ }

/-- Program P4 in phase DONE. -/
def countingDone : State :=
  { countingFinal with
    ph := .done
    out := ⟨0x9C302CE4B3F1CAC0, 0x6B5D9ACD921E8923, 0x1CD213B736D55CAA, 0x9A44E1DF107E7B1B⟩ }

/-- Program P3 in phase LOOP of HASH32. The lanes are those of its trace. -/
def p3Loop : State :=
  { State.reset with
    ph := .loop
    opl := 0
    mem := (List.range 17).map fun k => (0x2003 + k, BitVec.ofNat 8 (7 * k + 3))
    base := 0x2003
    len := 17
    basel := 0x2003
    lenl := 17
    lanes := ⟨0xD274632D, 0x862FF7F3, 0x1EBE5502, 0xDA35021D⟩ }

/-- Program P3 in phase TAIL. The lanes are those of its trace. -/
def p3Tail : State := { p3Loop with ph := .tail, i := 16, lanes := ⟨0x887F3EE1, 0xFF0FEAFD, 0x0F3FF001, 0x405F556E⟩ }

/-- Program P5: HASH64 of 16 bytes that end at the top of the input space, IDLE. -/
def top : State :=
  { State.reset with
    mem := (List.range 15).map fun k => (0xFFFFFFF1 + k, BitVec.ofNat 8 (k + 1))
    base := 0xFFFFFFF0
    len := 16 }

/-- Program P5 in phase TAIL of HASH64. -/
def topTail : State :=
  { top with ph := .tail, lcmd := 1, opl := 1, basel := 0xFFFFFFF0, lenl := 16, lanes := seeds Config.cfg .hash64 }

/-- Program P2: MIX32 with operand 0x12345678, IDLE. -/
def mixing : State := { State.reset with mixin := 0x12345678 }

/-- Program P2 in phase MIXP, with the upper half of the operand set (R104). -/
def mixp32 : State := { mixing with ph := .mixp, lcmd := 4, opl := 4, mixl := 0xAAAAAAAA12345678 }

/-- MIX64 in phase MIXP (section 2.2). -/
def mixp64 : State := { mixing with ph := .mixp, lcmd := 5, opl := 5, mixl := 0x0123456789ABCDEF }

/-! ### One step each (95_test_vectors.md, programs P1 to P5 and section 2.2) -/

theorem test_hash32_loop :
    lanesOf (engineStep Config.cfg p3Loop) = some ⟨0x887F3EE1, 0xFF0FEAFD, 0x0F3FF001, 0x405F556E⟩ := by
  decide +kernel

theorem test_hash32_tail :
    lanesOf (engineStep Config.cfg p3Tail) = some ⟨0xCBE48E7D, 0x22355C29, 0x1CA38FE4, 0xBE8CC783⟩ := by
  decide +kernel

theorem test_hash64_tail :
    lanesOf (engineStep Config.cfg topTail) =
      some ⟨0x7FC906876297AB04, 0x9D4ABE5786447968, 0xA3C9002B32D46FE1, 0x82765AEF3FB55C2C⟩ := by decide +kernel

theorem test_hash64_final :
    finalOuts Config.cfg .hash64 ⟨0x7FC906876297AB04, 0x9D4ABE5786447968, 0xA3C9002B32D46FE1, 0x82765AEF3FB55C2C⟩ =
      ⟨0xD5080D7FB2DD50D9, 0, 0, 0⟩ := by decide +kernel

theorem test_hash128_tail :
    lanesOf (engineStep Config.cfg helloTail) = some ⟨0xB0BB7853, 0xAB20F296, 0x878E96D0, 0xE40EA49F⟩ := by
  decide +kernel

theorem test_hash128_final :
    finalOuts Config.cfg .hash128 ⟨0xB0BB7853, 0xAB20F296, 0x878E96D0, 0xE40EA49F⟩ =
      ⟨0x784EF6AE, 0xC4642EAA, 0x5FC183E4, 0x00FE746B⟩ := by decide +kernel

theorem test_hash256_term :
    lanesOf (engineStep Config.cfg countingTerm) = some countingLoop.lanes := by decide +kernel

theorem test_hash256_final :
    outOf (engineStep Config.cfg countingFinal) = some countingDone.out := by decide +kernel

theorem test_mix32 : outOf (engineStep Config.cfg mixp32) = some ⟨0x831426A4, 0, 0, 0⟩ := by decide +kernel

theorem test_mix64 : outOf (engineStep Config.cfg mixp64) = some ⟨0x35D6C4979EFE5089, 0, 0, 0⟩ := by decide +kernel

/-! ### The interface (95_test_vectors.md section 2.8) -/

theorem test_refusal_codes :
    statusOf (regWrite 0 6 State.reset) = some 0x14 ∧
    statusOf (regWrite 0 0 countingTerm) = some 0x25 ∧
    statusOf (regWrite 0 1 { State.reset with base := 0xFFFFFFF0, len := 0x11 }) = some 0x34 ∧
    statusOf (regWrite 0 2 { countingDone with base := 0xFFFFFFFF, len := 2 }) = some 0x36 := by decide +kernel

theorem test_status_write :
    statusOf (regWrite 1 0xFFFFFFFFFFFFFFFB { countingDone with err := true, errcode := 3 }) = some 0x36 ∧
    statusOf (regWrite 1 0xFFFFFFFFFFFFFFFF { countingDone with err := true, errcode := 3 }) = some 0x02 := by
  decide +kernel

/-! ### Internal operations (95_test_vectors.md sections 2.1, 2.3, 2.6) -/

theorem test_fetch :
    fetch [0x68, 0x65, 0x6C, 0x6C, 0x6F, 0x00, 0xFF, 0x80, 0x01] 5 32 = 0x0180FF00#32 ∧
    fetch [0x68, 0x65, 0x6C, 0x6C, 0x6F, 0x00, 0xFF, 0x80, 0x01] 1 64 = 0x0180FF006F6C6C65#64 := by decide +kernel

theorem test_absorb_ones :
    absorb Config.cfg .hash64 ⟨-1, -1, -1, -1⟩ (List.replicate 32 0xFF) 0xFFFFFFE0 =
      ⟨0xFFFFFFFF0000001F, 0xFFFFFFFE0000003E, 0xFFFFFFFD0000005D, 0xFFFFFFFD0000005C⟩ ∧
    absorb Config.cfg .hash256 ⟨-1, -1, -1, -1⟩ (List.replicate 32 0xFF) 0xFFFFFFE0 =
      ⟨0x0000003E0000001F, 0x0000007C0000005D, 0x0000007B0000007C, 0x000000BA0000007B⟩ := by decide +kernel

theorem test_crossMix :
    crossMix (⟨1, 2, 3, 4⟩ : Quad 32) = ⟨0xFFFFFFF8, 0xFFFFFFF5, 0x0000000E, 0x0000000F⟩ := by decide +kernel

theorem test_fold :
    foldLanes (mix32 Config.cfg) (crossMix (⟨1, 0, 0, 0⟩ : Quad 32)) = 0xC7060442 := by decide +kernel

theorem test_fullRun_hash256 :
    hashOuts Config.cfg .hash256 [0x68, 0x65, 0x6C, 0x6C, 0x6F] =
      ⟨0x14C193A55FFA92A0, 0xCABB4212A0560DC6, 0xE5F5BE416A814693, 0x35A51EA9516EF2CA⟩ := by decide +kernel

/-! ### Witnesses of the invariant, one for each phase -/

theorem kinds_plain {s : State} (h : s.kinds = []) (lo hi : Nat) : answersOn s lo hi := by
  intro a _ _; rw [kindAt, h]; rfl

theorem hello_inv : hello.Inv :=
  ⟨by decide, by decide, by decide, by decide, by decide, by decide, by decide, by decide, by decide⟩

theorem helloTail_inv : helloTail.Inv :=
  ⟨by decide, by decide, by decide, by decide, by decide, fun _ => ⟨.hash128, by decide, by decide +kernel⟩,
    by decide, by decide, by decide⟩

theorem counting_inv : counting.Inv :=
  ⟨by decide +kernel, by decide, by decide, by decide, by decide, by decide, by decide, by decide, by decide⟩

theorem countingTerm_inv : countingTerm.Inv :=
  ⟨by decide +kernel, by decide, by decide, by decide, by decide, fun _ => ⟨.hash256, by decide, by decide +kernel⟩,
    by decide, by decide, by decide⟩

theorem countingLoop_inv : countingLoop.Inv :=
  ⟨by decide +kernel, by decide, by decide, by decide, by decide, fun _ => ⟨.hash256, by decide, by decide +kernel⟩,
    by decide, by decide, by decide⟩

theorem countingTail_inv : countingTail.Inv :=
  ⟨by decide +kernel, by decide, by decide, by decide, by decide, fun _ => ⟨.hash256, by decide, by decide +kernel⟩,
    by decide, by decide, by decide⟩

theorem countingFinal_inv : countingFinal.Inv :=
  ⟨by decide +kernel, by decide, by decide, by decide, by decide, fun _ => ⟨.hash256, by decide, by decide +kernel⟩,
    by decide, by decide, by decide⟩

theorem countingDone_inv : countingDone.Inv :=
  ⟨by decide +kernel, by decide, by decide, by decide, by decide, by decide, by decide, by decide, by decide⟩

theorem top_inv : top.Inv :=
  ⟨by decide +kernel, by decide, by decide, by decide, by decide, by decide, by decide, by decide, by decide⟩

theorem mixp32_inv : mixp32.Inv :=
  ⟨by decide, by decide, by decide, by decide, by decide, by decide, by decide, by decide, by decide⟩

/-- Program P5: LEN = 0 with BASE at the last address, after another command. -/
def emptyTop : State := { countingDone with base := 0xFFFFFFFF, len := 0 }

theorem emptyTop_inv : emptyTop.Inv :=
  ⟨by decide +kernel, by decide, by decide, by decide, by decide, by decide, by decide, by decide, by decide⟩

/-- "hello" with a side-effect address as the last of the window. -/
def helloSide : State := { hello with kinds := [(0x1004, .sideEffects)] }

theorem helloSide_inv : helloSide.Inv :=
  ⟨by decide, by decide, by decide, by decide, by decide, by decide, by decide, by decide, by decide⟩

/-- "hello" in phase TAIL with an address that never answers in the middle of the window. -/
def helloSilent : State := { helloTail with kinds := [(0x1002, .silent)] }

theorem helloSilent_inv : helloSilent.Inv :=
  ⟨by decide, by decide, by decide, by decide, by decide, fun _ => ⟨.hash128, by decide, by decide +kernel⟩,
    by decide, by decide, by decide⟩

/-! ### Witnesses of the statements' hypotheses -/

theorem witness_DecodeInvertsEncodeBothWays : decode 5 = .ok .mix64 ∧ (5 : Word64) = encode .mix64 := by decide

theorem witness_IllegalWordsAreRefused :
    hello.busy = false ∧ (∀ i, decode 6 ≠ .ok i) ∧ (∀ i, decode 7 ≠ .ok i) ∧ (∀ i, decode 8 ≠ .ok i) ∧
    ((8 : Word64).extractLsb' 3 61 ≠ 0 ∧ (6 : Word64).extractLsb' 0 3 = 6 ∧ (7 : Word64).extractLsb' 0 3 = 7) := by
  refine ⟨by decide, ?_, ?_, ?_, by decide⟩ <;> intro i <;> cases i <;> decide

/-- The smallest and the largest rotation, the lowest and the highest bit. -/
theorem witness_RotationsMoveBitsAround :
    (0 < 1 ∧ 1 < 32 ∧ 0 < 32) ∧ (0 < 31 ∧ 31 < 32 ∧ 31 < 32) ∧ (0 < 63 ∧ 63 < 64 ∧ 63 < 64) := by decide

/-- Each width, with a window that ends at the last byte, and its last byte. -/
theorem witness_FetchIsLittleEndian :
    let buf : List Byte := [0x68, 0x65, 0x6C, 0x6C, 0x6F, 0x00, 0xFF, 0x80, 0x01]
    (8 + 8 / 8 ≤ buf.length ∧ 0 < 8 / 8) ∧ (7 + 16 / 8 ≤ buf.length ∧ 1 < 16 / 8) ∧
    (5 + 32 / 8 ≤ buf.length ∧ 3 < 32 / 8) ∧ (1 + 64 / 8 ≤ buf.length ∧ 7 < 64 / 8) := by decide

theorem witness_WideFetchIsTwoNarrowFetches :
    let buf : List Byte := [0x68, 0x65, 0x6C, 0x6C, 0x6F, 0x00, 0xFF, 0x80, 0x01]
    1 + 8 ≤ buf.length := by decide

theorem witness_MixerFiveSteps : Cfg.ref.wellFormed = true := by decide

/-- L = 1, C, C + 1 and a multiple of C, each clause at its boundary. -/
theorem witness_LoopCountLeavesOneToCBytes :
    (1 ≤ 1 ∧ 1 ≤ chunkSize .hash32) ∧ (1 ≤ 16 ∧ 16 ≤ chunkSize .hash32) ∧ (1 ≤ 17 ∧ ¬ 17 ≤ chunkSize .hash32) ∧
    (0 ≤ chunkSize .hash64) ∧ 1 ≤ 1 := by decide

/-- No byte and C bytes; the first and the last byte of T beyond C. -/
theorem witness_ScratchFillPadsWithZeros :
    ([] : List Byte).length ≤ chunkSize .hash32 ∧ (List.replicate 16 (0xFF : Byte)).length ≤ chunkSize .hash32 ∧
    (List.replicate 32 (0xFF : Byte)).length ≤ chunkSize .hash256 ∧
    (16 < 32 ∧ chunkSize .hash32 ≤ 16) ∧ (31 < 32 ∧ chunkSize .hash32 ≤ 31) := by decide

/-- Inside the input space, at its top, empty at its last address; L = C and L = C + 1. -/
theorem witness_HashCommandsAreAccepted :
    (hello.busy = false ∧ hello.base.toNat + hello.len.toNat ≤ 2 ^ AW ∧ windowHas .sideEffects hello = false ∧
      windowHas .silent hello = false) ∧
    (top.busy = false ∧ top.base.toNat + top.len.toNat = 2 ^ AW ∧ windowHas .sideEffects top = false ∧
      windowHas .silent top = false ∧
      ¬ chunkSize .hash32 < top.len.toNat) ∧
    (counting.busy = false ∧ counting.base.toNat + counting.len.toNat ≤ 2 ^ AW ∧
      windowHas .sideEffects counting = false ∧ windowHas .silent counting = false ∧
      chunkSize .hash256 + 1 = counting.len.toNat) ∧
    (emptyTop.busy = false ∧ emptyTop.base.toNat + emptyTop.len.toNat ≤ 2 ^ AW ∧
      windowHas .sideEffects emptyTop = false ∧ windowHas .silent emptyTop = false) := by decide +kernel

theorem witness_MixCommandsAreAccepted :
    mixing.busy = false ∧ countingDone.busy = false ∧
    ({ State.reset with base := 0xFFFFFFFF, len := 2 } : State).busy = false := by decide

theorem witness_BusyEngineRefusesEveryCommand :
    countingTerm.busy = true ∧ countingLoop.busy = true ∧ countingTail.busy = true ∧ countingFinal.busy = true ∧
    mixp32.busy = true ∧ (2 : Nat) ≠ 0 := by decide

/-- Each clause at its boundary: a sum of 2^AW + 1, a sum of 2^AW, and LEN = 0. -/
theorem witness_RangeRefusesHashCommandsOnly :
    (let s : State := { top with len := 17 }
     s.busy = false ∧ 2 ^ AW + 1 = s.base.toNat + s.len.toNat ∧ 2 ^ AW < s.base.toNat + s.len.toNat) ∧
    (top.busy = false ∧ top.Inv ∧ answersOn top top.base.toNat (top.base.toNat + top.len.toNat) ∧
      top.base.toNat + top.len.toNat = 2 ^ AW) ∧
    (emptyTop.busy = false ∧ emptyTop.Inv ∧
      answersOn emptyTop emptyTop.base.toNat (emptyTop.base.toNat + emptyTop.len.toNat) ∧ emptyTop.len = 0) ∧
    mixing.busy = false :=
  ⟨by decide +kernel, ⟨by decide, top_inv, kinds_plain rfl _ _, by decide⟩,
    ⟨by decide, emptyTop_inv, kinds_plain rfl _ _, rfl⟩, by decide⟩

theorem witness_SideEffectWindowLaunchRefused :
    helloSide.Inv ∧ helloSide.busy = false ∧ helloSide.base.toNat + helloSide.len.toNat ≤ 2 ^ AW ∧
    helloSide.base.toNat ≤ 0x1004 ∧ 0x1004 < helloSide.base.toNat + helloSide.len.toNat ∧
    kindAt helloSide 0x1004 = .sideEffects :=
  ⟨helloSide_inv, by decide, by decide, by decide, by decide, by decide⟩

theorem witness_StatusWriteClearsRefusalRecord :
    (4 : Word64).getLsbD 2 = true ∧ (0xFFFFFFFFFFFFFFFB : Word64).getLsbD 2 = false ∧
    ({ hello with err := true, errcode := 2 } : State).err = true ∧
    (hello.busy = false ∧ hello.err = false ∧ ∃ t, exec .hash128 hello = .next t ∧ t.busy = true) ∧
    (mixing.busy = false ∧ mixing.err = false ∧ ∃ t, exec .mix32 mixing = .next t ∧ t.busy = true) :=
  ⟨by decide, by decide, rfl, ⟨by decide, by decide, _, rfl, rfl⟩, by decide, by decide, _, rfl, rfl⟩

/-- Accepted, illegal, and busy. -/
theorem witness_CommandRegisterReadsLastAccepted :
    (∃ t, regWrite 0 2 hello = .next t ∧ hello.busy = false ∧ t.busy = true) ∧
    (∃ t, regWrite 0 6 hello = .next t ∧ ¬ (hello.busy = false ∧ t.busy = true)) ∧
    (∃ t, regWrite 0 2 countingTerm = .next t ∧ ¬ (countingTerm.busy = false ∧ t.busy = true)) :=
  ⟨⟨_, rfl, rfl, rfl⟩, ⟨_, rfl, by decide⟩, ⟨_, rfl, by decide⟩⟩

theorem witness_OutputRegistersReadOnlyWhenDone :
    0 < 4 ∧ 3 < 4 ∧ countingDone.isDone = true ∧ hello.isDone = false ∧ countingTail.isDone = false := by decide

theorem witness_TermStepAbsorbsTrailingChunk :
    countingTerm.Inv ∧ countingTerm.ph = .term ∧ variantOf countingTerm.opl = some .hash256 ∧
    answersOn countingTerm countingTerm.basel.toNat (countingTerm.basel.toNat + countingTerm.lenl.toNat) :=
  ⟨countingTerm_inv, rfl, by decide, kinds_plain rfl _ _⟩

theorem witness_LoopStepAbsorbsOneChunk :
    countingLoop.Inv ∧ countingLoop.ph = .loop ∧ variantOf countingLoop.opl = some .hash256 ∧
    answersOn countingLoop countingLoop.basel.toNat (countingLoop.basel.toNat + countingLoop.lenl.toNat) :=
  ⟨countingLoop_inv, rfl, by decide, kinds_plain rfl _ _⟩

/-- C = 32, and C = 16 with a byte of T beyond the chunk. -/
theorem witness_TailStepAbsorbsPaddedRest :
    (helloTail.Inv ∧ helloTail.ph = .tail ∧ variantOf helloTail.opl = some .hash128 ∧
      answersOn helloTail helloTail.basel.toNat (helloTail.basel.toNat + helloTail.lenl.toNat) ∧
      chunkSize .hash128 ≤ 16 ∧ 16 < 32) ∧
    countingTail.Inv ∧ countingTail.ph = .tail ∧ variantOf countingTail.opl = some .hash256 ∧
    answersOn countingTail countingTail.basel.toNat (countingTail.basel.toNat + countingTail.lenl.toNat) :=
  ⟨⟨helloTail_inv, rfl, by decide, kinds_plain rfl _ _, by decide, by decide⟩, countingTail_inv, rfl, by decide,
    kinds_plain rfl _ _⟩

theorem witness_LastStepsWriteOutputs :
    (countingFinal.ph = .final ∧ variantOf countingFinal.opl = some .hash256) ∧
    (mixp32.ph = .mixp ∧ mixp32.opl = 0b100) ∧ (mixp64.ph = .mixp ∧ mixp64.opl = 0b101) := by decide

/-- The first and the last address of a TAIL step that reads the whole window, and L = 0. -/
theorem witness_ReadsStayInsideTheWindow :
    helloTail.Inv ∧ 0x1000 ∈ stepAddrs helloTail ∧ 0x1004 ∈ stepAddrs helloTail ∧ State.reset.lenl = 0 :=
  ⟨helloTail_inv, by decide, by decide, rfl⟩

/-- A memory that differs from the step's own one address beyond the window. -/
theorem witness_EngineStepReadsOnlyItsAddresses :
    ∀ a ∈ stepAddrs helloTail, memByte (sparsePut 0 0x1005 0x21 helloTail.mem) a = memByte helloTail.mem a := by
  decide

theorem witness_ReadsOfACommandInOrder :
    (counting.Inv ∧ counting.base.toNat + counting.len.toNat ≤ 2 ^ AW ∧
      answersOn counting counting.base.toNat (counting.base.toNat + counting.len.toNat) ∧
      chunkSize .hash256 < counting.len.toNat) ∧
    (top.Inv ∧ top.base.toNat + top.len.toNat ≤ 2 ^ AW ∧
      answersOn top top.base.toNat (top.base.toNat + top.len.toNat) ∧ ¬ chunkSize .hash32 < top.len.toNat) :=
  ⟨⟨counting_inv, by decide, kinds_plain rfl _ _, by decide⟩, top_inv, by decide, kinds_plain rfl _ _, by decide⟩

theorem witness_UnansweredReadStallsTheEngine :
    helloSilent.Inv ∧ stepAddrs helloSilent = [0x1000, 0x1001] ++ 0x1002 :: [0x1003, 0x1004] ∧
    (∀ b ∈ [0x1000, 0x1001], kindAt helloSilent b = .plain) ∧ kindAt helloSilent 0x1002 = .silent :=
  ⟨helloSilent_inv, by decide, by decide, by decide⟩

theorem witness_EngineStepFrame :
    (∃ t, engineStep Config.cfg countingTerm = .next t) ∧ (∃ t, engineStep Config.cfg countingLoop = .next t) ∧
    (∃ t, engineStep Config.cfg countingTail = .next t) ∧ (∃ t, engineStep Config.cfg countingFinal = .next t) ∧
    (∃ t, engineStep Config.cfg mixp32 = .next t) ∧ ∃ t, engineStep Config.cfg hello = .next t :=
  ⟨⟨_, rfl⟩, ⟨_, rfl⟩, ⟨_, rfl⟩, ⟨_, rfl⟩, ⟨_, rfl⟩, _, rfl⟩

/-- The host's next turn issues HASH128. -/
def helloIssue : State := { hello with agenda := [.host (.regWrite 0 2)] }

theorem helloIssue_inv : helloIssue.Inv :=
  ⟨by decide, by decide, by decide, by decide, by decide, by decide, by decide, by decide, by decide⟩

theorem witness_StepRunsTheDecodedCommand :
    helloIssue.agenda = .host (.regWrite 0 2) :: [] ∧ decode 2 = .ok .hash128 ∧
    ({ hello with agenda := [.host (.regWrite 0 6)] } : State).agenda = .host (.regWrite 0 6) :: [] ∧
    ({ hello with agenda := [.host (.regWrite 1 4)] } : State).agenda = .host (.regWrite 1 4) :: [] := by decide

theorem witness_ResetEventInAnyPhase :
    ({ countingTail with agenda := [.reset] } : State).agenda = .reset :: [] := rfl

theorem witness_ResetStateValues : 0 ≤ 4 ∧ 4 ≤ 4 := by decide

/-- From every phase, and an issue. -/
theorem witness_PhaseTransitionTable :
    (countingTerm.Inv ∧ ∃ t, step countingTerm = .next t ∧ t.ph = .loop) ∧
    (countingLoop.Inv ∧ ∃ t, step countingLoop = .next t ∧ t.ph = .tail) ∧
    (countingTail.Inv ∧ ∃ t, step countingTail = .next t ∧ t.ph = .final) ∧
    (countingFinal.Inv ∧ ∃ t, step countingFinal = .next t ∧ t.ph = .done) ∧
    (countingDone.Inv ∧ ∃ t, step countingDone = .next t ∧ t.ph = .done) ∧
    (mixp32.Inv ∧ ∃ t, step mixp32 = .next t ∧ t.ph = .done) ∧
    (helloIssue.Inv ∧ ∃ t, step helloIssue = .next t ∧ t.ph = .tail) :=
  ⟨⟨countingTerm_inv, _, rfl, rfl⟩, ⟨countingLoop_inv, _, rfl, rfl⟩, ⟨countingTail_inv, _, rfl, rfl⟩,
    ⟨countingFinal_inv, _, rfl, rfl⟩, ⟨countingDone_inv, _, rfl, rfl⟩, ⟨mixp32_inv, _, rfl, rfl⟩,
    helloIssue_inv, _, rfl, rfl⟩

/-- A host write to the last address of the input space, and a step that writes nothing. -/
theorem witness_OnlyHostWritesChangeMemory :
    (let s : State := { hello with agenda := [.host (.memWrite 0xFFFFFFFF 7)] }
     s.Inv ∧ (∃ t, step s = .next t) ∧ s.agenda = .host (.memWrite 0xFFFFFFFF 7) :: [] ∧
      (0x1000 : Nat) ≠ (0xFFFFFFFF : Addr).toNat) ∧
    (countingTail.Inv ∧ (∃ t, step countingTail = .next t) ∧
      (∀ (a : Addr) (b : Byte) (rest : List Turn), countingTail.agenda ≠ .host (.memWrite a b) :: rest) ∧
      ∀ rest : List Turn, countingTail.agenda ≠ .reset :: rest) :=
  ⟨⟨⟨by decide, by decide, by decide, by decide, by decide, by decide, by decide, by decide, by decide⟩, ⟨_, rfl⟩, rfl,
    by decide⟩, countingTail_inv, ⟨_, rfl⟩, by simp [countingTail, countingTerm, counting, State.reset],
    by simp [countingTail, countingTerm, counting, State.reset]⟩

/-- The host reads OUT0, and writes LEN, while DONE = 1. -/
theorem witness_ResultIsStableWhileDone :
    (∃ t, step { countingDone with agenda := [.host (.regRead 8)] } = .next t ∧ t.isDone = true) ∧
    (∃ t, step { countingDone with agenda := [.host (.regWrite 3 0)] } = .next t ∧ t.isDone = true) ∧
    countingDone.isDone = true := ⟨⟨_, rfl, rfl⟩, ⟨_, rfl, rfl⟩, rfl⟩

theorem witness_PlainRegisterWriteFrame :
    (∃ t, regWrite 1 4 countingLoop = .next t) ∧ (∃ t, regWrite 2 7 countingLoop = .next t) ∧
    (∃ t, regWrite 3 7 countingLoop = .next t) ∧ (∃ t, regWrite 4 7 countingLoop = .next t) ∧
    ∃ t, regWrite 8 7 countingLoop = .next t := ⟨⟨_, rfl⟩, ⟨_, rfl⟩, ⟨_, rfl⟩, ⟨_, rfl⟩, _, rfl⟩

theorem witness_EveryStepKeepsTheInvariant :
    (countingLoop.Inv ∧ ∃ t, step countingLoop = .next t) ∧ (helloIssue.Inv ∧ ∃ t, step helloIssue = .next t) :=
  ⟨⟨countingLoop_inv, _, rfl⟩, helloIssue_inv, _, rfl⟩

theorem witness_NoRunEverFaults : countingLoop.Inv := countingLoop_inv

theorem witness_EveryEngineStepMakesProgress :
    (countingTerm.Inv ∧ countingTerm.busy = true ∧
      answersOn countingTerm countingTerm.basel.toNat (countingTerm.basel.toNat + countingTerm.lenl.toNat)) ∧
    (countingFinal.Inv ∧ countingFinal.busy = true ∧
      answersOn countingFinal countingFinal.basel.toNat (countingFinal.basel.toNat + countingFinal.lenl.toNat)) ∧
    (mixp32.Inv ∧ mixp32.busy = true ∧
      answersOn mixp32 mixp32.basel.toNat (mixp32.basel.toNat + mixp32.lenl.toNat)) :=
  ⟨⟨countingTerm_inv, rfl, kinds_plain rfl _ _⟩, ⟨countingFinal_inv, rfl, kinds_plain rfl _ _⟩, mixp32_inv, rfl,
    kinds_plain rfl _ _⟩

theorem witness_HashCommandsComplete :
    (counting.Inv ∧ counting.busy = false ∧ counting.agenda = [] ∧
      counting.base.toNat + counting.len.toNat ≤ 2 ^ AW ∧
      answersOn counting counting.base.toNat (counting.base.toNat + counting.len.toNat)) ∧
    (top.Inv ∧ top.busy = false ∧ top.agenda = [] ∧ top.base.toNat + top.len.toNat = 2 ^ AW ∧
      answersOn top top.base.toNat (top.base.toNat + top.len.toNat)) :=
  ⟨⟨counting_inv, rfl, rfl, by decide, kinds_plain rfl _ _⟩, top_inv, rfl, rfl, by decide, kinds_plain rfl _ _⟩

theorem witness_MixCommandsComplete : mixing.busy = false ∧ mixing.agenda = [] := by decide

/-- The host writes LEN, issues again, and writes a byte outside the window while HASH128 of "hello" runs. -/
def helloAgenda : State :=
  { hello with agenda := [.host (.regWrite 3 0), .host (.regWrite 0 0), .engine, .host (.memWrite 0x1005 1)] }

theorem helloAgenda_inv : helloAgenda.Inv :=
  ⟨by decide, by decide, by decide, by decide, by decide, by decide, by decide, by decide, by decide⟩

theorem helloAgenda_runs : ∃ t u, exec (commandOf .hash128) helloAgenda = .next t ∧ t.busy = true ∧
    Host.Core.run Sys2Proof.core 5 t = .next u ∧ u.isDone = true ∧
    ∀ m w, m < 5 → Host.Core.run Sys2Proof.core m t = .next w → w.isDone = false := by
  refine ⟨_, _, rfl, rfl, rfl, rfl, fun m w hm h => ?_⟩
  interval_cases m <;> cases h <;> rfl

theorem witness_InterleavingDoesNotChangeTheResult : helloAgenda.Inv ∧ helloAgenda.busy = false ∧
    answersOn helloAgenda helloAgenda.base.toNat (helloAgenda.base.toNat + helloAgenda.len.toNat) ∧
    (∀ a ∈ helloAgenda.agenda,
      keepsWindow helloAgenda.base.toNat (helloAgenda.base.toNat + helloAgenda.len.toNat) a = true) ∧
    ∃ t u, exec (commandOf .hash128) helloAgenda = .next t ∧ t.busy = true ∧
      Host.Core.run Sys2Proof.core 5 t = .next u ∧ u.isDone = true ∧
      ∀ m w, m < 5 → Host.Core.run Sys2Proof.core m t = .next w → w.isDone = false :=
  ⟨helloAgenda_inv, rfl, kinds_plain rfl _ _, by decide, helloAgenda_runs⟩

/-- "hello" at another address, after another command, under another agenda. -/
def helloElsewhere : State :=
  { countingDone with
    mem := [(0x2001, 0x68), (0x2002, 0x65), (0x2003, 0x6C), (0x2004, 0x6C), (0x2005, 0x6F)]
    base := 0x2001
    len := 5 }

theorem helloElsewhere_inv : helloElsewhere.Inv :=
  ⟨by decide, by decide, by decide, by decide, by decide, by decide, by decide, by decide, by decide⟩

theorem helloElsewhere_runs : ∃ t u, exec (commandOf .hash128) helloElsewhere = .next t ∧ t.busy = true ∧
    Host.Core.run Sys2Proof.core 2 t = .next u ∧ u.isDone = true ∧
    ∀ m w, m < 2 → Host.Core.run Sys2Proof.core m t = .next w → w.isDone = false := by
  refine ⟨_, _, rfl, rfl, rfl, rfl, fun m w hm h => ?_⟩
  interval_cases m <;> cases h <;> rfl

theorem witness_EqualMessagesGiveEqualResults : helloAgenda.Inv ∧ helloElsewhere.Inv ∧ helloAgenda.busy = false ∧
    helloElsewhere.busy = false ∧
    answersOn helloAgenda helloAgenda.base.toNat (helloAgenda.base.toNat + helloAgenda.len.toNat) ∧
    answersOn helloElsewhere helloElsewhere.base.toNat (helloElsewhere.base.toNat + helloElsewhere.len.toNat) ∧
    (∀ a ∈ helloAgenda.agenda,
      keepsWindow helloAgenda.base.toNat (helloAgenda.base.toNat + helloAgenda.len.toNat) a = true) ∧
    (∀ a ∈ helloElsewhere.agenda,
      keepsWindow helloElsewhere.base.toNat (helloElsewhere.base.toNat + helloElsewhere.len.toNat) a = true) ∧
    helloAgenda.len = helloElsewhere.len ∧
    (∀ k, k < helloAgenda.len.toNat →
      memByte helloAgenda.mem (helloAgenda.base.toNat + k) =
        memByte helloElsewhere.mem (helloElsewhere.base.toNat + k)) ∧
    (∃ t u, exec (commandOf .hash128) helloAgenda = .next t ∧ t.busy = true ∧
      Host.Core.run Sys2Proof.core 5 t = .next u ∧ u.isDone = true ∧
      ∀ m w, m < 5 → Host.Core.run Sys2Proof.core m t = .next w → w.isDone = false) ∧
    ∃ t u, exec (commandOf .hash128) helloElsewhere = .next t ∧ t.busy = true ∧
      Host.Core.run Sys2Proof.core 2 t = .next u ∧ u.isDone = true ∧
      ∀ m w, m < 2 → Host.Core.run Sys2Proof.core m t = .next w → w.isDone = false :=
  ⟨helloAgenda_inv, helloElsewhere_inv, rfl, rfl, kinds_plain rfl _ _, kinds_plain rfl _ _, by decide, by decide,
    by decide, by decide, helloAgenda_runs, helloElsewhere_runs⟩

/-- Two states with different lanes, offset, scratch bytes, latches and output registers, no command running. -/
theorem witness_DeadElementsAreNeverRead :
    let u : State :=
      { helloIssue with
        lanes := ⟨1, 2, 3, 4⟩
        i := 5
        t := Vector.replicate 32 6
        opl := 7
        basel := 8
        lenl := 9
        mixl := 10
        out := ⟨11, 12, 13, 14⟩ }
    AgreeLive helloIssue u ∧ helloIssue ≠ u :=
  ⟨⟨rfl, rfl, rfl, rfl, rfl, rfl, rfl, rfl, rfl, rfl, rfl, rfl, by decide, by decide, by decide, by decide, by decide⟩,
    by decide⟩

/-- The call of hash128 with all its words, and the call of hash32 with one. -/
theorem witness_HashCallReturnsItsWords :
    (let s : State := { hello with agenda := callHash .hash128 0x1000 5 4 }
     s.Inv ∧ s.busy = false ∧ s.agenda = callHash .hash128 0x1000 5 4 ∧ 1 ≤ 4 ∧ 4 ≤ 4 ∧
      (0x1000 : Addr).toNat + (5 : Addr).toNat ≤ 2 ^ AW ∧
      answersOn s (0x1000 : Addr).toNat ((0x1000 : Addr).toNat + (5 : Addr).toNat)) ∧
    (let s : State := { hello with agenda := callHash .hash32 0xFFFFFFFF 0 1 }
     s.busy = false ∧ s.agenda = callHash .hash32 0xFFFFFFFF 0 1 ∧ 1 ≤ 1 ∧ 1 ≤ 4 ∧
      (0xFFFFFFFF : Addr).toNat + (0 : Addr).toNat ≤ 2 ^ AW) :=
  ⟨⟨⟨by decide, by decide, by decide, by decide, by decide, by decide, by decide, by decide, by decide⟩, rfl, rfl,
    by decide, by decide, by decide, kinds_plain rfl _ _⟩, rfl, rfl, by decide, by decide, by decide⟩

theorem witness_MixCallReturnsItsWord :
    (let s : State := { hello with agenda := callMix .mix32 0x12345678 }
     s.busy = false ∧ s.agenda = callMix .mix32 0x12345678) ∧
    (let s : State := { hello with agenda := callMix .mix64 0x12345678 }
     s.busy = false ∧ s.agenda = callMix .mix64 0x12345678) := ⟨⟨rfl, rfl⟩, rfl, rfl⟩

/-- "hello" with the last address of the window silent, IDLE. -/
def helloGone : State := { hello with kinds := [(0x1004, .silent)] }

theorem helloGone_inv : helloGone.Inv :=
  ⟨by decide, by decide, by decide, by decide, by decide, by decide, by decide, by decide, by decide⟩

theorem witness_SilentWindowLaunchRefused :
    helloGone.Inv ∧ helloGone.busy = false ∧ helloGone.base.toNat + helloGone.len.toNat ≤ 2 ^ AW ∧
    helloGone.base.toNat ≤ 0x1004 ∧ 0x1004 < helloGone.base.toNat + helloGone.len.toNat ∧
    kindAt helloGone 0x1004 = .silent ∧
    ∀ b, helloGone.base.toNat ≤ b → b < helloGone.base.toNat + helloGone.len.toNat →
      kindAt helloGone b ≠ .sideEffects := by
  refine ⟨helloGone_inv, by decide, by decide, by decide, by decide, by decide, fun b _ _ => ?_⟩
  simp only [kindAt, helloGone, sparseGet]
  split <;> decide

/-- Each kind of turn; OUT0 with DONE = 0 and with DONE = 1; a plain address and a silent one. -/
theorem witness_HostReadTurns :
    ({ helloTail with agenda := [.host (.regRead 8)] } : State).agenda = .host (.regRead 8) :: [] ∧
    ({ countingDone with agenda := [.host (.regRead 11)] } : State).agenda = .host (.regRead 11) :: [] ∧
    ({ helloTail with agenda := [.host .wait] } : State).agenda = .host .wait :: [] ∧
    ({ helloGone with agenda := [.host (.memRead 0x1004)] } : State).agenda = .host (.memRead 0x1004) :: [] ∧
    kindAt helloGone (0x1004 : Addr).toNat ≠ .plain ∧ kindAt helloGone (0x1003 : Addr).toNat = .plain := by decide

/-- A write of a silent address, and an address that answers again. -/
theorem witness_HostMemoryTurns :
    (let s : State := { helloGone with agenda := [.host (.memWrite 0x1004 7)] }
     s.Inv ∧ s.agenda = .host (.memWrite 0x1004 7) :: [] ∧ (0x1003 : Nat) ≠ (0x1004 : Addr).toNat) ∧
    (let s : State := { helloGone with agenda := [.host (.setKind 0x1004 .plain)] }
     s.Inv ∧ s.agenda = .host (.setKind 0x1004 .plain) :: []) :=
  ⟨⟨⟨by decide, by decide, by decide, by decide, by decide, by decide, by decide, by decide, by decide⟩, rfl, by decide⟩,
    ⟨by decide, by decide, by decide, by decide, by decide, by decide, by decide, by decide, by decide⟩, rfl⟩

end Sys2Proof.Tests
end

section
/-! The register map of 10_state.md R26 to R32, register by register: what a write of an operand register stores, what a
read of it returns, and that the reserved numbers hold nothing. -/

namespace Sys2Proof.Machine

open Sys2Proof

/-! ### Writes -/

theorem regWrite_of_ne_zero {n : Nat} (hn : n ≠ 0) (v : Word64) (s : State) :
    regWrite n v s = .next (plainWrite n v s) := if_neg hn

@[simp] theorem regWrite_base (v : Word64) (s : State) :
    regWrite 2 v s = .next { s with base := v.setWidth AW } := rfl

@[simp] theorem regWrite_len (v : Word64) (s : State) :
    regWrite 3 v s = .next { s with len := v.setWidth AW } := rfl

@[simp] theorem regWrite_mixin (v : Word64) (s : State) : regWrite 4 v s = .next { s with mixin := v } := rfl

/-- R26: the only numbers whose plain write has an effect are 1 to 4. -/
theorem plainWrite_of_five_le {n : Nat} (hn : 5 ≤ n) (v : Word64) (s : State) : plainWrite n v s = s := by
  obtain ⟨h, -⟩ | ⟨h, -⟩ | ⟨h, -⟩ | ⟨h, -⟩ | h := plainWrite_cases n v s
  · omega
  · omega
  · omega
  · omega
  · exact h

theorem regWrite_of_five_le {n : Nat} (hn : 5 ≤ n) (v : Word64) (s : State) : regWrite n v s = .next s := by
  rw [regWrite_of_ne_zero (by omega), plainWrite_of_five_le hn]

/-! ### Reads -/

@[simp] theorem regRead_base (s : State) : regRead 2 s = (s.base.setWidth 64, s) := rfl

@[simp] theorem regRead_len (s : State) : regRead 3 s = (s.len.setWidth 64, s) := rfl

@[simp] theorem regRead_mixin (s : State) : regRead 4 s = (s.mixin, s) := rfl

/-- R32: a reserved number reads 0, and the read draws no free value. -/
theorem regRead_reserved {n : Nat} (hn : n = 5 ∨ n = 6 ∨ n = 7 ∨ 12 ≤ n) (s : State) : regRead n s = (0, s) := by
  obtain rfl | rfl | rfl | hn := hn
  · rfl
  · rfl
  · rfl
  · obtain ⟨m, rfl⟩ := Nat.exists_eq_add_of_le' hn
    rfl

/-- Settles O25, register by register: the write's next state, then the read of the field it stored; no lemma on the way
asks for a phase. -/
theorem operandRegistersReadBack : Obligations.OperandRegistersReadBack := by
  intro s v
  refine ⟨⟨_, regWrite_base v s, rfl, regRead_base _⟩, ⟨_, regWrite_len v s, rfl, regRead_len _⟩,
    ⟨_, regWrite_mixin v s, rfl, regRead_mixin _⟩, fun n hn => ?_⟩
  exact ⟨regWrite_of_five_le (by omega) v s, regRead_reserved hn s⟩

end Sys2Proof.Machine
end

section
/-! The engine's reads (20_memory.md R54, R55): which addresses a step reads by its phase, that they lie in the latched
window, and the reads of a whole hash command in order. -/

namespace Sys2Proof.Machine

open Sys2Proof

/-! ### The addresses of one step -/

theorem stepAddrs_term {s : State} {v : Variant} (hp : s.ph = .term) (hv : variantOf s.opl = some v) :
    stepAddrs s = termAddrs v s := by simp only [stepAddrs, hp, hv]

theorem stepAddrs_loop {s : State} {v : Variant} (hp : s.ph = .loop) (hv : variantOf s.opl = some v) :
    stepAddrs s = loopAddrs v s := by simp only [stepAddrs, hp, hv]

theorem stepAddrs_tail {s : State} {v : Variant} (hp : s.ph = .tail) (hv : variantOf s.opl = some v) :
    stepAddrs s = tailAddrs s := by simp only [stepAddrs, hp, hv]

theorem stepAddrs_final {s : State} (hp : s.ph = .final) : stepAddrs s = [] := by
  simp only [stepAddrs, hp]
  split <;> rfl

/-- Only the TERM, LOOP and TAIL steps of a hash command read. -/
theorem mem_stepAddrs {s : State} {a : Nat} (h : a ∈ stepAddrs s) :
    ∃ v, variantOf s.opl = some v ∧
      (s.ph = .term ∧ a ∈ termAddrs v s ∨ s.ph = .loop ∧ a ∈ loopAddrs v s ∨ s.ph = .tail ∧ a ∈ tailAddrs s) := by
  unfold stepAddrs at h
  split at h
  · cases h
  · next v hv =>
    refine ⟨v, hv, ?_⟩
    split at h
    · next hp => exact .inl ⟨hp, h⟩
    · next hp => exact .inr (.inl ⟨hp, h⟩)
    · next hp => exact .inr (.inr ⟨hp, h⟩)
    all_goals cases h

theorem termAddrs_in_window {s : State} {v : Variant} (h : chunkSize v ≤ s.lenl.toNat) :
    ∀ a ∈ termAddrs v s, inLatchedWindow s a := by
  intro a ha
  have := mem_addrsFrom.1 ha
  constructor <;> omega

theorem loopAddrs_in_window {s : State} {v : Variant} (h : s.i.toNat + chunkSize v ≤ s.lenl.toNat) :
    ∀ a ∈ loopAddrs v s, inLatchedWindow s a := by
  intro a ha
  have := mem_addrsFrom.1 ha
  constructor <;> omega

theorem tailAddrs_in_window (s : State) : ∀ a ∈ tailAddrs s, inLatchedWindow s a := by
  intro a ha
  have := mem_addrsFrom.1 ha
  constructor <;> omega

/-- R54: the invariant's latches keep the reads of every phase in the window. -/
theorem stepAddrs_in_window {s : State} (hi : s.Inv) : ∀ a ∈ stepAddrs s, inLatchedWindow s a := by
  intro a ha
  obtain ⟨v, hv, ⟨hp, ha⟩ | ⟨hp, ha⟩ | ⟨-, ha⟩⟩ := mem_stepAddrs ha
  · obtain ⟨-, hterm, -⟩ := latches_of_inv hi (by simp [State.hashing, hp]) hv
    exact termAddrs_in_window (hterm hp).1.le a ha
  · obtain ⟨-, -, hloop, -⟩ := latches_of_inv hi (by simp [State.hashing, hp]) hv
    obtain ⟨-, -, hoff⟩ := hloop hp
    exact loopAddrs_in_window (hoff.trans (nFull_mul_le v _)) a ha
  · exact tailAddrs_in_window s a ha

/-- Settles O33: the window has no address when L = 0, so the second clause follows from the first. -/
theorem readsStayInsideTheWindow : Obligations.ReadsStayInsideTheWindow := by
  intro s hi
  refine ⟨stepAddrs_in_window hi, fun h0 => List.eq_nil_iff_forall_not_mem.2 fun a ha => ?_⟩
  obtain ⟨hlo, hhi⟩ := stepAddrs_in_window hi a ha
  have hlen : s.lenl.toNat = 0 := congrArg BitVec.toNat h0
  omega

/-! ### A window that answers -/

/-- R50, R58 (a): the latched window lies in the input space, and every address of it answers. -/
structure WindowAnswers (s : State) : Prop where
  inSpace : s.basel.toNat + s.lenl.toNat ≤ 2 ^ AW
  answers : answersOn s s.basel.toNat (s.basel.toNat + s.lenl.toNat)

theorem WindowAnswers.plain {s : State} (h : WindowAnswers s) {as : List Nat}
    (has : ∀ a ∈ as, inLatchedWindow s a) : ∀ a ∈ as, a < 2 ^ AW ∧ kindAt s a = .plain := by
  intro a ha
  obtain ⟨hlo, hhi⟩ := has a ha
  exact ⟨hhi.trans_le h.inSpace, h.answers a hlo hhi⟩

/-- The bytes in memory, the lanes and the phase have no part in it. -/
theorem WindowAnswers.congr {s t : State} (h : WindowAnswers s) (hb : t.basel = s.basel) (hl : t.lenl = s.lenl)
    (hk : t.kinds = s.kinds) : WindowAnswers t := by
  obtain ⟨hspace, hans⟩ := h
  refine ⟨by rw [hb, hl]; exact hspace, ?_⟩
  simpa only [answersOn, kindAt, hb, hl, hk] using hans

/-! ### The run -/

theorem runAddrs_of_next {c : Cfg} {n : Nat} {s t : State} (h : engineStep c s = .next t) :
    runAddrs c (n + 1) s = stepAddrs s ++ runAddrs c n t := by simp only [runAddrs, h]

/-- The running command of variant `v` has `n` chunks left to absorb in the loop, and its window answers: TAIL comes
next when none is left. -/
structure ChunksLeft (v : Variant) (n : Nat) (s : State) : Prop where
  variant : variantOf s.opl = some v
  window : WindowAnswers s
  offset : s.i.toNat + n * chunkSize v = nFull v s.lenl.toNat * chunkSize v
  phase : s.ph = if n = 0 then .tail else .loop

/-- R162: the TERM step leaves all `n_full` chunks to the loop. -/
theorem chunksLeft_afterTerm {c : Cfg} {v : Variant} {s : State} {ch : List Byte} (hv : variantOf s.opl = some v)
    (hw : WindowAnswers s) (hi : s.i = 0) (hlen : chunkSize v < s.lenl.toNat) :
    ChunksLeft v (nFull v s.lenl.toNat) (afterTerm c v s ch) where
  variant := hv
  window := hw.congr rfl rfl rfl
  offset := by simp [hi]
  phase := by
    have := nFull_pos hlen
    rw [afterTerm_ph, if_neg (by omega)]

/-- A LOOP step has a whole chunk before the end of the loop. -/
theorem ChunksLeft.loop_guard {v : Variant} {n : Nat} {s : State} (h : ChunksLeft v (n + 1) s) :
    s.i.toNat + chunkSize v ≤ nFull v s.lenl.toNat * chunkSize v := by
  have := h.offset
  rw [Nat.succ_mul] at this
  omega

/-- R119: a LOOP step ends the loop exactly when it absorbs the last chunk left. -/
theorem ChunksLeft.ends_loop_iff {v : Variant} {n : Nat} {s : State} (h : ChunksLeft v (n + 1) s) :
    s.i.toNat + chunkSize v = nFull v s.lenl.toNat * chunkSize v ↔ n = 0 := by
  have hrest : n * chunkSize v = 0 ↔ n = 0 := by simp [(chunkSize_pos v).ne']
  rw [← h.offset, Nat.succ_mul]
  omega

/-- R163: a LOOP step leaves one chunk less. -/
theorem chunksLeft_afterLoop {c : Cfg} {v : Variant} {n : Nat} {s : State} {ch : List Byte}
    (h : ChunksLeft v (n + 1) s) : ChunksLeft v n (afterLoop c v s ch) where
  variant := h.variant
  window := h.window.congr rfl rfl rfl
  offset := by
    rw [afterLoop_i, afterLoop_lenl, toNat_loop_offset h.loop_guard, ← h.offset, Nat.succ_mul]
    omega
  phase := by simp only [afterLoop_ph, h.ends_loop_iff]

/-- R131, R165: TAIL reads the rest of the message and FINAL reads nothing. -/
theorem runAddrs_tail {c : Cfg} {v : Variant} {s : State} (h : ChunksLeft v 0 s) : runAddrs c 2 s = tailAddrs s := by
  have hp : s.ph = .tail := h.phase
  have hoff : s.i.toNat = nFull v s.lenl.toNat * chunkSize v := by simpa using h.offset
  rw [runAddrs_of_next (engineStep_tail hp h.variant hoff (h.window.plain (tailAddrs_in_window s))),
    runAddrs_of_next (engineStep_final (afterTail_ph ..) h.variant), stepAddrs_tail hp h.variant,
    stepAddrs_final (afterTail_ph ..)]
  simp [runAddrs]

/-- R55: from the loop on, the reads are the message from offset I to its end, each byte once. -/
theorem runAddrs_chunksLeft {c : Cfg} {v : Variant} {n : Nat} {s : State} (h : ChunksLeft v n s) :
    runAddrs c (n + 2) s = addrsFrom (s.basel.toNat + s.i.toNat) (s.lenl.toNat - s.i.toNat) := by
  induction n generalizing s with
  | zero => exact runAddrs_tail h
  | succ n ih =>
    have hp : s.ph = .loop := h.phase
    have hfit : s.i.toNat + chunkSize v ≤ s.lenl.toNat := h.loop_guard.trans (nFull_mul_le v _)
    have hstep := engineStep_loop (c := c) hp h.variant h.loop_guard (h.window.plain (loopAddrs_in_window hfit))
    rw [Nat.add_right_comm, runAddrs_of_next hstep, ih (chunksLeft_afterLoop h), stepAddrs_loop hp h.variant, loopAddrs,
      afterLoop_i, afterLoop_basel, afterLoop_lenl, toNat_loop_offset h.loop_guard, ← Nat.add_assoc,
      addrsFrom_append]
    congr 1
    omega

/-- R162: TERM reads the last chunk of the message, then the loop and TAIL read all of it. -/
theorem runAddrs_term {c : Cfg} {v : Variant} {s : State} (hp : s.ph = .term) (hv : variantOf s.opl = some v)
    (hw : WindowAnswers s) (hi : s.i = 0) (hlen : chunkSize v < s.lenl.toNat) :
    runAddrs c (nFull v s.lenl.toNat + 2 + 1) s = termAddrs v s ++ addrsFrom s.basel.toNat s.lenl.toNat := by
  have hstep := engineStep_term (c := c) hp hv hlen (hw.plain (termAddrs_in_window hlen.le))
  rw [runAddrs_of_next hstep, runAddrs_chunksLeft (chunksLeft_afterTerm hv hw hi hlen), stepAddrs_term hp hv]
  simp [hi]

/-! ### From acceptance -/

/-- Settles O35, by the phase the command is accepted into: TERM first when L > C, else TAIL alone, as a loop of no
chunks. -/
theorem readsOfACommandInOrder : Obligations.ReadsOfACommandInOrder := by
  intro c s v _ hr ha
  have hv : variantOf (acceptHash c v s).opl = some v := opField_encode_commandOf v
  have hw : WindowAnswers (acceptHash c v s) := ⟨hr, ha⟩
  obtain ⟨hp, hlen⟩ | ⟨hp, hlen⟩ := acceptHash_phase c v s
  · have hsteps : hashSteps v s.len.toNat = nFull v s.len.toNat + 2 + 1 := by
      rw [hashSteps, if_pos hlen]
      omega
    rw [if_pos hlen, hsteps]
    exact runAddrs_term hp hv hw rfl hlen
  · have hloop : ChunksLeft v 0 (acceptHash c v s) := ⟨hv, hw, by simp [nFull_eq_zero hlen], hp⟩
    rw [if_neg (by omega), hashSteps, if_neg (by omega), nFull_eq_zero hlen]
    exact runAddrs_chunksLeft hloop

end Sys2Proof.Machine
end

section
/-! Illegal command words (30_encoding.md R70, R73): when the decoder rejects a word, and what the write of a rejected
word to CMD does while no command runs (60_exceptions.md R182, R184). -/

namespace Sys2Proof.Machine

open Sys2Proof

/-! ### The words that are no command -/

/-- R70: bits 2 and 1 of OP are TEST and SPREAD, so the reserved values 110 and 111 are the ones with both set. -/
theorem opField_reserved_iff (v : Word64) :
    opField v = 6 ∨ opField v = 7 ↔ testBit v = true ∧ spreadBit v = true := by
  have htest : testBit v = (opField v).getLsbD 2 := by simp [testBit, opField]
  have hspread : spreadBit v = (opField v).getLsbD 1 := by simp [spreadBit, opField]
  rw [htest, hspread]
  generalize opField v = op
  revert op
  decide

theorem decode_of_zeroField_ne {v : Word64} (h : zeroField v ≠ 0) : decode v = .error .zeroFieldSet := if_pos h

theorem decode_of_test_spread {v : Word64} (hz : zeroField v = 0) (ht : testBit v = true) (hs : spreadBit v = true) :
    decode v = .error .reservedOp := by
  simp [decode, hz, ht, hs]

theorem exists_decode_eq_ok {v : Word64} (hz : zeroField v = 0) (h : ¬ (testBit v = true ∧ spreadBit v = true)) :
    ∃ i, decode v = .ok i := by
  unfold decode
  rw [if_neg (not_not_intro hz)]
  split
  case h_7 ht hs => exact absurd ⟨ht, hs⟩ h
  all_goals exact ⟨_, rfl⟩

/-- R73: exactly the illegal words decode to no command. -/
theorem decode_ne_ok_iff (v : Word64) :
    (∀ i, decode v ≠ .ok i) ↔ zeroField v ≠ 0 ∨ opField v = 6 ∨ opField v = 7 := by
  rw [opField_reserved_iff]
  constructor
  · intro hno
    by_contra hlegal
    obtain ⟨hz, hop⟩ := not_or.1 hlegal
    obtain ⟨i, hi⟩ := exists_decode_eq_ok (not_not.1 hz) hop
    exact hno i hi
  · intro hill i hi
    by_cases hz : zeroField v = 0
    · obtain ⟨ht, hs⟩ := hill.resolve_left (not_not_intro hz)
      cases (decode_of_test_spread hz ht hs).symm.trans hi
    · cases (decode_of_zeroField_ne hz).symm.trans hi

/-! ### The write of such a word -/

/-- R182: with BUSY = 0 the write of a word that is no command is the refusal with ILLEGAL_CMD. -/
theorem commandWrite_illegal {v : Word64} {s : State} (hb : s.busy = false) (hv : ∀ i, decode v ≠ .ok i) :
    commandWrite v s = .next (refuse .illegalCmd s) := by
  unfold commandWrite
  rw [if_neg (by simp [hb])]
  split
  · next i hi => exact absurd hi (hv i)
  · rfl

/-- Settles O3: the decoder rejects by ZERO or by TEST and SPREAD both set, which is R73's condition on OP; the write
falls through BUSY_CMD to the refusal of R184. -/
theorem illegalWordsAreRefused : Obligations.IllegalWordsAreRefused := by
  intro v
  refine ⟨(decode_ne_ok_iff v).symm, fun s hb hv => ?_⟩
  calc regWrite 0 v s = commandWrite v s := rfl
    _ = .next (refuse .illegalCmd s) := commandWrite_illegal hb hv
    _ = _ := congrArg _ (refuse_eq _ s)

end Sys2Proof.Machine
end

section
/-! The mixer's five steps (41_mixer.md R100, R101): at a well-formed configuration its two rotations are Lean's own. -/

namespace Sys2Proof

theorem amountOk_iff {n r : Nat} : amountOk n r = true ↔ 0 < r ∧ r < n := by
  simp [amountOk, Nat.one_le_iff_ne_zero, Nat.pos_iff_ne_zero]

/-- R9: the amounts of the mixer's two rotations lie in 1..N-1. -/
theorem MixConst.rotation_amounts {n : Nat} {k : MixConst n} (h : k.wellFormed = true) :
    (0 < k.s1 ∧ k.s1 < n) ∧ (0 < k.s3 ∧ k.s3 < n) := by
  simp only [MixConst.wellFormed, Bool.and_eq_true, amountOk_iff] at h
  obtain ⟨⟨⟨⟨-, hs1⟩, -⟩, hs3⟩, -⟩ := h
  exact ⟨hs1, hs3⟩

theorem Cfg.wellFormed_mixers {c : Cfg} (h : c.wellFormed = true) :
    c.mix32.wellFormed = true ∧ c.mix64.wellFormed = true := by
  simp only [Cfg.wellFormed, Bool.and_eq_true] at h
  obtain ⟨⟨⟨⟨h32, h64⟩, -⟩, -⟩, -⟩ := h
  exact ⟨h32, h64⟩

namespace Machine

/-- R100, R101: values that follow the first four steps give the mixer's result by the fifth. -/
theorem mixer_of_steps {n : Nat} {k : MixConst n} (hk : k.wellFormed = true) {v v1 v2 v3 v4 : BitVec n}
    (h1 : v1 = v * k.k1) (h2 : v2 = v1 ^^^ v1.rotateRight k.s1) (h3 : v3 = v2 + k.k2 * (v2 >>> k.s2))
    (h4 : v4 = v3 * v3.rotateLeft k.s3) : mixer k v = v4 ^^^ ((v4 <<< k.s4) * k.k3) := by
  obtain ⟨⟨hs1, hs1n⟩, -, hs3n⟩ := MixConst.rotation_amounts hk
  rw [← rotr_eq_rotateRight v1 hs1 hs1n] at h2
  rw [← rotl_eq_rotateLeft v3 hs3n] at h4
  subst h1 h2 h3 h4
  rfl

/-- Settles O7: the intermediates are the values the first four steps define; each example is its five equations in
order, evaluated. -/
theorem mixerFiveSteps : Obligations.MixerFiveSteps := by
  refine ⟨fun c hc v => ?_, fun c hc v => ?_, ?_, ?_⟩
  · exact ⟨_, _, _, _, rfl, rfl, rfl, rfl, mixer_of_steps (Cfg.wellFormed_mixers hc).1 rfl rfl rfl rfl⟩
  · exact ⟨_, _, _, _, rfl, rfl, rfl, rfl, mixer_of_steps (Cfg.wellFormed_mixers hc).2 rfl rfl rfl rfl⟩
  · exact ⟨by decide, by decide, by decide, by decide, by decide⟩
  · exact ⟨by decide, by decide, by decide, by decide, by decide⟩

end Machine

end Sys2Proof
end

section
/-! The absorption of 42_absorb.md: the loop count of R118, the steps of R110 to R116 and the permutation of R113 and
R117. -/

namespace Sys2Proof.Machine

open Sys2Proof

/-! ### The loop count -/

theorem nFull_of_pos (v : Variant) {n : Nat} (h : 1 ≤ n) : nFull v n = (n - 1) / chunkSize v :=
  if_neg (by omega)

/-- R118: a message of whole chunks leaves its last one to the tail; `k - 1` is the only count that leaves 1 to C
bytes of it. -/
theorem nFull_mul_chunkSize (v : Variant) {k : Nat} (hk : 1 ≤ k) : nFull v (k * chunkSize v) = k - 1 := by
  obtain ⟨hlo, hhi⟩ := nFull_bounds v (Nat.mul_pos hk (chunkSize_pos v))
  have hlt : nFull v (k * chunkSize v) < k := Nat.lt_of_mul_lt_mul_right hlo
  have hle : k ≤ nFull v (k * chunkSize v) + 1 := by
    rw [← Nat.succ_mul] at hhi
    exact Nat.le_of_mul_le_mul_right hhi (chunkSize_pos v)
  omega

/-- Settles O12: the bytes left are the bounds of `nFull`, and they fix its value at a whole number of chunks. -/
theorem loopCountLeavesOneToCBytes : Obligations.LoopCountLeavesOneToCBytes := by
  intro v len k
  refine ⟨nFull_zero v, nFull_of_pos v, nFull_eq_zero, nFull_mul_chunkSize v, fun hlen => ?_, Nat.zero_sub _⟩
  obtain ⟨hlo, hhi⟩ := nFull_bounds v hlen
  constructor <;> omega

/-! ### The absorption steps -/

@[simp] theorem absorb_hash32 (c : Cfg) (l : Lanes) (ch : List Byte) (i : Addr) :
    absorb c .hash32 l ch i = (absorbUniform c.v32 (l.quad 32) ch (i.setWidth 32)).lanes := rfl

@[simp] theorem absorb_hash64 (c : Cfg) (l : Lanes) (ch : List Byte) (i : Addr) :
    absorb c .hash64 l ch i = (absorbUniform c.v64 (l.quad 64) ch (i.setWidth 64)).lanes := rfl

@[simp] theorem absorb_hash128 (c : Cfg) (l : Lanes) (ch : List Byte) (i : Addr) :
    absorb c .hash128 l ch i = (absorbUniform c.v32 (l.quad 32) ch (i.setWidth 32)).lanes := rfl

@[simp] theorem absorb_hash256 (c : Cfg) (l : Lanes) (ch : List Byte) (i : Addr) :
    absorb c .hash256 l ch i = absorbDouble c.v256 l ch i := rfl

/-- Settles O9: the step is its four assignments, each variant takes it at its own width, and the examples of R111 are
evaluated. -/
theorem uniformAbsorptionStep : Obligations.UniformAbsorptionStep := by
  refine ⟨fun n u q ch t => ⟨rfl, rfl, rfl, rfl⟩, fun c l ch i => ?_, ?_, ?_, ?_, ?_⟩
  · exact ⟨absorb_hash32 c l ch i, absorb_hash128 c l ch i, absorb_hash64 c l ch i⟩
  · decide
  · decide
  · decide
  · decide

/-- Settles O10: the new pairs are stored as `cat32` of their sub-registers, so reading a half of LW or LX gives back
the 32-bit assignment; LY and LZ are stored as they are computed. -/
theorem doubleWidthAbsorptionStep : Obligations.DoubleWidthAbsorptionStep := by
  refine ⟨fun c l ch i => ?_, by decide⟩
  simp only [absorb_hash256]
  refine ⟨?_, ?_, ?_, ?_, rfl, rfl⟩ <;> simp only [absorbDouble, atWidth, lo32_cat32, hi32_cat32]

/-! ### The permutation -/

@[simp] theorem permute_lw (l : Lanes) : (permute l).lw = l.lw := rfl

@[simp] theorem permute_lx (l : Lanes) : (permute l).lx = l.lz := rfl

@[simp] theorem permute_ly (l : Lanes) : (permute l).ly = l.lx := rfl

@[simp] theorem permute_lz (l : Lanes) : (permute l).lz = l.ly := rfl

/-- R113: over three chunks every stored value is back in its lane. -/
@[simp] theorem permute_permute_permute (l : Lanes) : permute (permute (permute l)) = l := rfl

/-- Settles O11, lane by lane. -/
theorem permutationIsThreeCycle : Obligations.PermutationIsThreeCycle := fun l =>
  ⟨permute_lw l, permute_lx l, permute_ly l, permute_lz l, permute_permute_permute l⟩

end Sys2Proof.Machine
end

section
/-! The tail step of 43_tail.md R130 to R133: the scratch fill, the length injection, and the whole next state of phase
TAIL (45_commands.md R164). -/

namespace Sys2Proof.Machine

open Sys2Proof

/-! ### Halves of a word -/

theorem hi32_eq_shiftRight (v : Word64) : hi32 v = (v >>> 32).setWidth 32 := by
  ext k hk; simp [hi32]

@[simp] theorem lo32_setWidth (v : BitVec 32) : lo32 (v.setWidth 64) = v := by
  rw [lo32_eq_setWidth, BitVec.setWidth_setWidth_of_le _ (by decide), BitVec.setWidth_eq]

/-! ### The length injection -/

@[simp] theorem injectLength_lx (v : Variant) (len : Addr) (l : Lanes) : (injectLength v len l).lx = l.lx := by
  cases v <;> rfl

@[simp] theorem injectLength_ly (v : Variant) (len : Addr) (l : Lanes) : (injectLength v len l).ly = l.ly := by
  cases v <;> rfl

@[simp] theorem injectLength_lz (v : Variant) (len : Addr) (l : Lanes) : (injectLength v len l).lz = l.lz := by
  cases v <;> rfl

/-- R132: HASH32 and HASH128 inject at lane width 32 and store the lane zero-extended. -/
theorem injectLength_lw_narrow {v : Variant} (hv : v = .hash32 ∨ v = .hash128) (len : Addr) (l : Lanes) :
    (injectLength v len l).lw = (l.lw.setWidth 32 ^^^ len.setWidth 32).setWidth 64 := by
  obtain rfl | rfl := hv
  · rfl
  · rfl

@[simp] theorem injectLength_lw_hash64 (len : Addr) (l : Lanes) :
    (injectLength .hash64 len l).lw = l.lw ^^^ len.setWidth 64 := rfl

/-- R132: the two halves HASH256 injects are the halves of the zero-extended length. -/
@[simp] theorem injectLength_lw_hash256 (len : Addr) (l : Lanes) :
    (injectLength .hash256 len l).lw = l.lw ^^^ len.setWidth 64 := by
  apply eq_of_halves
  · simp [injectLength, atWidth, ← hi32_eq_shiftRight]
  · simp [injectLength, atWidth]

/-- Settles O14: the carry lane at each variant's width; no variant writes another lane. -/
theorem lengthInjectionIntoCarryLane : Obligations.LengthInjectionIntoCarryLane := by
  intro len l
  refine ⟨fun v hv => ?_, injectLength_lw_hash64 len l, injectLength_lw_hash256 len l, fun v => ?_⟩
  · rw [injectLength_lw_narrow hv]
    exact BitVec.setWidth_setWidth_of_le _ (by decide)
  · exact ⟨injectLength_lx v len l, injectLength_ly v len l, injectLength_lz v len l⟩

/-! ### The scratch fill -/

theorem fillScratch_of_lt_size {size k : Nat} (bytes : List Byte) (t : Vector Byte 32) (hk : k < 32) (h : k < size) :
    (fillScratch size bytes t)[k] = bytes.getD k 0 := by
  simp [fillScratch, h]

/-- R23: T[C..31] keep their bytes. -/
theorem fillScratch_of_size_le {size k : Nat} (bytes : List Byte) (t : Vector Byte 32) (hk : k < 32) (h : size ≤ k) :
    (fillScratch size bytes t)[k] = t[k] := by
  simp [fillScratch, Nat.not_lt.2 h]

theorem length_scratchChunk {size : Nat} (hs : size ≤ 32) (t : Vector Byte 32) :
    (scratchChunk size t).length = size := by
  simp [scratchChunk, hs]

theorem getElem_scratchChunk {size k : Nat} (t : Vector Byte 32) (hk : k < 32) (h : k < (scratchChunk size t).length) :
    (scratchChunk size t)[k] = t[k] := by
  simp [scratchChunk]

/-- R131: the chunk the tail absorption reads is the bytes of the fill, padded with zeros. -/
theorem scratchChunk_fillScratch {size : Nat} {bytes : List Byte} (hs : size ≤ 32) (hb : bytes.length ≤ size)
    (t : Vector Byte 32) :
    scratchChunk size (fillScratch size bytes t) = bytes ++ List.replicate (size - bytes.length) 0 := by
  apply List.ext_getElem
  · simp [length_scratchChunk hs, hb]
  · intro k hk _
    have hlt : k < size := by rwa [length_scratchChunk hs] at hk
    rw [getElem_scratchChunk _ (hlt.trans_le hs), fillScratch_of_lt_size bytes t _ hlt]
    by_cases hin : k < bytes.length
    · simp [hin]
    · simp [hin, List.getElem_append_right (Nat.not_lt.1 hin)]

/-! ### The step -/

theorem chunkSize_le (v : Variant) : chunkSize v ≤ 32 := by cases v <;> decide

/-- R118, R131: the loop leaves at most a chunk of the message. -/
theorem sub_nFull_le (v : Variant) (n : Nat) : n - nFull v n * chunkSize v ≤ chunkSize v := by
  rcases Nat.eq_zero_or_pos n with rfl | h
  · simp
  · have := (nFull_bounds v h).2
    omega

/-- Settles O31: the invariant puts I at the end of the loop, so the step's window is the rest of the message, and the
rest fits the scratch chunk. -/
theorem tailStepAbsorbsPaddedRest : Obligations.TailStepAbsorbsPaddedRest := by
  intro c s v hi hp hv hans
  obtain ⟨hspace, -, -, htail, -⟩ := latches_of_inv hi (by simp [State.hashing, hp]) hv
  have hoff := htail hp
  have hw : WindowAnswers s := ⟨hspace, hans⟩
  have hstep := engineStep_tail (c := c) hp hv hoff (hw.plain (tailAddrs_in_window s))
  have hlen : ((tailAddrs s).map (memByte s.mem)).length ≤ chunkSize v := by
    simpa [tailAddrs, hoff] using sub_nFull_le v s.lenl.toNat
  refine ⟨_, fillScratch (chunkSize v) ((tailAddrs s).map (memByte s.mem)) s.t, ?_,
    scratchChunk_fillScratch (chunkSize_le v) hlen s.t, fun k hk h => fillScratch_of_size_le _ s.t hk h, hstep⟩
  simp [tailAddrs, addrsFrom, hoff]

end Sys2Proof.Machine
end

section
/-! The finalizer of 44_finalize.md R140 to R144: the cross-mix, and what fold and spread mode put in the output
registers. -/

namespace Sys2Proof.Machine

open Sys2Proof

/-! ### The cross-mix -/

/-- R141: all-zero lanes stay all zero. -/
@[simp] theorem crossMix_zero (n : Nat) : crossMix (⟨0#n, 0#n, 0#n, 0#n⟩ : Quad n) = ⟨0#n, 0#n, 0#n, 0#n⟩ := by
  simp [crossMix]

theorem crossMix_one_zero_zero_zero (n : Nat) : crossMix (⟨1, 0, 0, 0⟩ : Quad n) = ⟨1, 1, 1, 0⟩ := by
  simp [crossMix]

/-- Settles O15: the first four values are those of assignments 1 to 4, and the results follow from them by
assignments 5 to 8; the example is evaluated. -/
theorem crossMixEightSteps : Obligations.CrossMixEightSteps := by
  intro n q
  refine ⟨⟨_, _, _, _, rfl, rfl, rfl, rfl, ?_⟩, crossMix_zero n, crossMix_one_zero_zero_zero n, by decide⟩
  exact ⟨rfl, rfl, rfl, rfl⟩

/-! ### The lanes the finalizer reads -/

/-- R140: at W = 64 the finalizer reads the storage registers as they are. -/
@[simp] theorem Lanes.quad_64 (l : Lanes) : l.quad 64 = ⟨l.lw, l.lx, l.ly, l.lz⟩ := by
  simp [Lanes.quad]

@[simp] theorem Lanes.quad_zero (n : Nat) : Lanes.quad n ⟨0#64, 0#64, 0#64, 0#64⟩ = ⟨0#n, 0#n, 0#n, 0#n⟩ := by
  simp [Lanes.quad]

/-! ### Fold and spread mode -/

@[simp] theorem mix32_zero (c : Cfg) : mix32 c 0#32 = 0#32 := mixer_zero c.mix32

@[simp] theorem mix64_zero (c : Cfg) : mix64 c 0#64 = 0#64 := mixer_zero c.mix64

/-- R142: a mixer that maps 0 to 0 keeps the whole chain at 0. -/
theorem foldLanes_zero {n : Nat} {mix : BitVec n → BitVec n} (h : mix 0#n = 0#n) :
    foldLanes mix ⟨0#n, 0#n, 0#n, 0#n⟩ = 0#n := by
  simp [foldLanes, h]

theorem foldOuts_zero {n : Nat} {mix : BitVec n → BitVec n} (h : mix 0#n = 0#n) :
    foldOuts mix ⟨0#n, 0#n, 0#n, 0#n⟩ = ⟨0, 0, 0, 0⟩ := by
  simp [foldOuts, foldLanes_zero h]

theorem finalOuts_hash32 (c : Cfg) (l : Lanes) :
    finalOuts c .hash32 l = foldOuts (mix32 c) (crossMix (l.quad 32)) := rfl

theorem finalOuts_hash128 (c : Cfg) (l : Lanes) :
    finalOuts c .hash128 l = spreadOuts (mix32 c) (crossMix (l.quad 32)) := rfl

theorem finalOuts_hash64 (c : Cfg) (l : Lanes) :
    finalOuts c .hash64 l = foldOuts (mix64 c) (crossMix ⟨l.lw, l.lx, l.ly, l.lz⟩) := by
  rw [← Lanes.quad_64]; rfl

theorem finalOuts_hash256 (c : Cfg) (l : Lanes) :
    finalOuts c .hash256 l = spreadOuts (mix64 c) (crossMix ⟨l.lw, l.lx, l.ly, l.lz⟩) := by
  rw [← Lanes.quad_64]; rfl

/-- R144: a 64-bit result goes to OUT0 as it is. -/
theorem foldOuts_64 (mix : BitVec 64 → BitVec 64) (q : Quad 64) : foldOuts mix q = ⟨foldLanes mix q, 0, 0, 0⟩ := by
  simp [foldOuts]

/-- R144: 64-bit words go to the output registers as they are. -/
theorem spreadOuts_64 (mix : BitVec 64 → BitVec 64) (q : Quad 64) :
    spreadOuts mix q = ⟨mix q.w, mix q.x, mix q.y, mix q.z⟩ := by
  simp [spreadOuts]

/-- Settles O16: each variant is its mode at its own width, over the cross-mixed lanes; zero lanes are still zero when
the chain reads them; the examples are evaluated. -/
theorem foldAndSpreadAssembly : Obligations.FoldAndSpreadAssembly := by
  refine ⟨fun c l => ⟨⟨?_, ?_⟩, ⟨?_, ?_⟩, ?_, ?_⟩, by decide, by decide⟩
  · exact finalOuts_hash32 c l
  · exact finalOuts_hash128 c l
  · exact (finalOuts_hash64 c l).trans (foldOuts_64 _ _)
  · exact (finalOuts_hash256 c l).trans (spreadOuts_64 _ _)
  · simp [finalOuts_hash32, foldOuts_zero]
  · simp [finalOuts_hash64, foldOuts_zero]

end Sys2Proof.Machine
end

section
/-! The first and the last steps of a command (45_commands.md R162, R165, R166): the whole next state of the phases
TERM, FINAL and MIXP. -/

namespace Sys2Proof.Machine

open Sys2Proof

/-! ### The TERM step -/

/-- R134: the addresses of the TERM step with the sum BASEL + L taken first. -/
theorem termAddrs_eq {v : Variant} {s : State} (h : chunkSize v ≤ s.lenl.toNat) :
    termAddrs v s = addrsFrom (s.basel.toNat + s.lenl.toNat - chunkSize v) (chunkSize v) := by
  rw [termAddrs, Nat.add_sub_assoc h]

/-- Settles O29: the invariant gives L > C, so the trailing chunk lies in the window, its reads answer, and L - C does
not wrap. -/
theorem termStepAbsorbsTrailingChunk : Obligations.TermStepAbsorbsTrailingChunk := by
  intro c s v hi hp hv hans
  obtain ⟨hspace, hterm, -⟩ := latches_of_inv hi (by simp [State.hashing, hp]) hv
  obtain ⟨hlen, -⟩ := hterm hp
  have hw : WindowAnswers s := ⟨hspace, hans⟩
  have hstep := engineStep_term (c := c) hp hv hlen (hw.plain (termAddrs_in_window hlen.le))
  refine ⟨(termAddrs v s).map (memByte s.mem), ?_, ?_⟩
  · simp [termAddrs_eq hlen.le, addrsFrom]
  · rw [hstep, ofNat_sub_chunk hlen.le, afterTerm]

/-! ### The MIXP step -/

theorem engineStep_mixp_mix32 {c : Cfg} {s : State} (hp : s.ph = .mixp) (ho : s.opl = 0b100) :
    engineStep c s = .next (finish (mix32Outs c s.mixl) s) := by
  simp only [engineStep, hp, stepMixp, ho, if_true]

theorem engineStep_mixp_mix64 {c : Cfg} {s : State} (hp : s.ph = .mixp) (ho : s.opl = 0b101) :
    engineStep c s = .next (finish (mix64Outs c s.mixl) s) := by
  have hne : (0b101 : BitVec 3) ≠ 0b100 := by decide
  simp only [engineStep, hp, stepMixp, ho, hne, if_true, if_false]

/-! ### The steps that write the outputs -/

/-- R104: MIX32 mixes the low half of its operand into OUT0. -/
theorem mix32Outs_eq (c : Cfg) (v : Word64) :
    mix32Outs c v = ⟨(mix32 c (v.setWidth 32)).setWidth 64, 0, 0, 0⟩ := by
  rw [mix32Outs, lo32_eq_setWidth]

/-- Settles O32: one clause per step that finishes a command; none of them has a guard on memory. -/
theorem lastStepsWriteOutputs : Obligations.LastStepsWriteOutputs := by
  refine fun c s => ⟨fun v hp hv => ?_, fun hp ho => ?_, fun hp ho => ?_⟩
  · exact engineStep_final hp hv
  · rw [← mix32Outs_eq]
    exact engineStep_mixp_mix32 hp ho
  · exact engineStep_mixp_mix64 hp ho

end Sys2Proof.Machine
end

section
/-! The refusals and their record (60_exceptions.md R183 to R185, R189): commands while the engine is busy, the range
check of hash commands, and the write of STATUS. -/

namespace Sys2Proof.Machine

open Sys2Proof

/-! ### Commands while the engine is busy -/

/-- R183, R186: BUSY_CMD comes before the decoder and every other check. -/
theorem commandWrite_of_busy {s : State} (hb : s.busy = true) (v : Word64) :
    commandWrite v s = .next (refuse .busyCmd s) := if_pos hb

theorem issueHash_of_busy {s : State} (hb : s.busy = true) (c : Cfg) (v : Variant) :
    issueHash c v s = .next (refuse .busyCmd s) := if_pos hb

theorem issueMix_of_busy {s : State} (hb : s.busy = true) (i : Instr) :
    issueMix i s = .next (refuse .busyCmd s) := if_pos hb

theorem exec_of_busy {s : State} (hb : s.busy = true) (i : Instr) : exec i s = .next (refuse .busyCmd s) := by
  obtain ⟨v, rfl⟩ | hm := instr_cases i
  · rw [exec_commandOf, issueHash_of_busy hb]
  · rw [exec_mix hm, issueMix_of_busy hb]

/-- Settles O20: the command write and the command itself both meet the busy check first, and its refusal is the record
of R184; a write of another register has no such check. -/
theorem busyEngineRefusesEveryCommand : Obligations.BusyEngineRefusesEveryCommand := by
  intro s hb
  refine ⟨fun v => ?_, fun i => ?_, fun n v hn => regWrite_of_ne_zero hn v s⟩
  · calc regWrite 0 v s = commandWrite v s := rfl
      _ = .next (refuse .busyCmd s) := commandWrite_of_busy hb v
      _ = _ := congrArg _ (refuse_eq _ s)
  · calc exec i s = .next (refuse .busyCmd s) := exec_of_busy hb i
      _ = _ := congrArg _ (refuse_eq _ s)

/-! ### The range check -/

theorem outOfRange_iff {s : State} : outOfRange s = true ↔ 2 ^ AW < s.base.toNat + s.len.toNat := decide_eq_true_iff

theorem issueHash_outOfRange {s : State} (hb : s.busy = false) (hr : 2 ^ AW < s.base.toNat + s.len.toNat) (c : Cfg)
    (v : Variant) : issueHash c v s = .next (refuse .range s) := by
  rw [issueHash, if_neg (Bool.eq_false_iff.1 hb), if_pos (outOfRange_iff.2 hr)]

theorem exec_accepts_hash {v : Variant} {s : State} (hb : s.busy = false)
    (hr : s.base.toNat + s.len.toNat ≤ 2 ^ AW)
    (hw : windowHas .sideEffects s = false ∧ windowHas .silent s = false) :
    exec (commandOf v) s = .next (acceptHash Config.cfg v s) := by
  rw [exec_commandOf, issueHash_accepts hb hr hw]

theorem exec_accepts_mix {i : Instr} {s : State} (hi : i = .mix32 ∨ i = .mix64) (hb : s.busy = false) :
    exec i s = .next (acceptMix i s) := by
  rw [exec_mix hi, issueMix_accepts hb]

/-- R160: an accepted hash command starts in TERM or TAIL. -/
theorem acceptHash_busy (c : Cfg) (v : Variant) (s : State) : (acceptHash c v s).busy = true := by
  obtain ⟨hp, -⟩ | ⟨hp, -⟩ := acceptHash_phase c v s
  · simp only [State.busy, hp]
  · simp only [State.busy, hp]

/-- R185: LEN = 0 is in range at every BASE, since BASE itself is below 2^AW. -/
theorem in_range_of_len_zero {s : State} (h : s.len = 0) : s.base.toNat + s.len.toNat ≤ 2 ^ AW := by
  have hlt := s.base.isLt
  have hlen : s.len.toNat = 0 := by simp [h]
  omega

/-- Settles O21: past 2^AW the range check refuses; the two boundary cases are in range, and the launch checks pass on a
window that answers; a mixer test command meets no check but BUSY_CMD. -/
theorem rangeRefusesHashCommandsOnly : Obligations.RangeRefusesHashCommandsOnly := by
  refine ⟨fun s v hb hr => ?_, fun s v hb hi ha hedge => ?_, fun s i hi hb => ?_⟩
  · calc exec (commandOf v) s = issueHash Config.cfg v s := exec_commandOf v s
      _ = .next (refuse .range s) := issueHash_outOfRange hb hr _ v
      _ = _ := congrArg _ (refuse_eq _ s)
  · have hr : s.base.toNat + s.len.toNat ≤ 2 ^ AW := hedge.elim in_range_of_len_zero Eq.le
    exact ⟨_, exec_accepts_hash hb hr (launch_of_answers hi.kinds ha), acceptHash_busy .., acceptHash_lcmd ..,
      acceptHash_err ..⟩
  · exact ⟨_, exec_accepts_mix hi hb, acceptMix_ph .., acceptMix_err .., acceptMix_errcode ..⟩

/-! ### The refusal record -/

/-- R28: the write of STATUS acknowledges the refusal by bit 2 of the data. -/
theorem regWrite_status_of_bit_set {v : Word64} (h : v.getLsbD 2 = true) (s : State) :
    regWrite 1 v s = .next (clearErr s) := congrArg _ (if_pos h)

theorem regWrite_status_of_bit_clear {v : Word64} (h : v.getLsbD 2 = false) (s : State) : regWrite 1 v s = .next s :=
  congrArg _ (if_neg (Bool.eq_false_iff.1 h))

/-- R184, R189: refusals do not nest. -/
theorem refuse_of_err {s : State} (h : s.err = true) (r : RefusalCode) : refuse r s = s := if_pos h

/-- R184: a refusal leaves the phase as it is, and with it BUSY. -/
@[simp] theorem refuse_busy (r : RefusalCode) (s : State) : (refuse r s).busy = s.busy := by
  simp [State.busy]

/-- R160: acceptance is what `exec` did when it leaves the engine busy from an idle or done state. -/
theorem exec_accepted {i : Instr} {s t : State} (hb : s.busy = false) (h : exec i s = .next t) (ht : t.busy = true) :
    (∃ v, i = commandOf v ∧ s.base.toNat + s.len.toNat ≤ 2 ^ AW ∧
      (windowHas .sideEffects s = false ∧ windowHas .silent s = false) ∧ t = acceptHash Config.cfg v s) ∨
    ((i = .mix32 ∨ i = .mix64) ∧ t = acceptMix i s) := by
  obtain ⟨hbusy, -⟩ | ⟨-, rfl⟩ | ⟨-, hacc⟩ | ⟨-, hacc⟩ := exec_next h
  · exact absurd hbusy (by simp [hb])
  · exact absurd ht (by simp [hb])
  · exact .inl hacc
  · exact .inr hacc

/-- R189: no check of the issue reads ERR or ERRCODE, and acceptance carries them along. -/
theorem exec_accepted_of_record {i : Instr} {s t : State} (hb : s.busy = false) (h : exec i s = .next t)
    (ht : t.busy = true) (e : Bool) (code : BitVec 3) :
    exec i { s with err := e, errcode := code } = .next { t with err := e, errcode := code } := by
  obtain ⟨v, rfl, hr, hw, rfl⟩ | ⟨hi, rfl⟩ := exec_accepted hb h ht
  · exact exec_accepts_hash (s := { s with err := e, errcode := code }) hb hr hw
  · exact exec_accepts_mix (s := { s with err := e, errcode := code }) hi hb

/-- Settles O23: bit 2 decides the write of STATUS, a set ERR makes a refusal the identity, and acceptance is alike for
every refusal record. -/
theorem statusWriteClearsRefusalRecord : Obligations.StatusWriteClearsRefusalRecord := by
  refine ⟨fun s v h => regWrite_status_of_bit_set h s, fun s v h => regWrite_status_of_bit_clear h s,
    fun s r h => refuse_of_err h r, fun s i t hb _ h ht code => ?_⟩
  exact exec_accepted_of_record hb h ht true code

end Sys2Proof.Machine
end

section
/-! The invariant of the machine: it holds after reset, and each action of the engine and of the host keeps it. -/

namespace Sys2Proof.Machine

open Sys2Proof

/-! ### Narrow lanes and the shape of the result -/

/-- R21: lanes of 32 bits are stored with zero upper halves. -/
theorem narrowLanes_quad (q : Quad 32) : NarrowLanes q.lanes :=
  ⟨hi32_setWidth q.w, hi32_setWidth q.x, hi32_setWidth q.y, hi32_setWidth q.z⟩

/-- R70: bit 0 of the opcode, WSEL, is clear in the variants of 32-bit lanes. -/
theorem narrow_variant {o : BitVec 3} {v : Variant} (hv : variantOf o = some v) (h : o.getLsbD 0 = false) :
    v = .hash32 ∨ v = .hash128 := by
  rw [variantOf_eq_some hv] at h
  cases v <;> simp_all [commandOf, encode, opField]

theorem narrowLanes_seeds (c : Cfg) {v : Variant} (hv : v = .hash32 ∨ v = .hash128) : NarrowLanes (seeds c v) := by
  obtain rfl | rfl := hv <;> exact narrowLanes_quad _

theorem narrowLanes_absorb (c : Cfg) {v : Variant} (hv : v = .hash32 ∨ v = .hash128) (l : Lanes) (ch : List Byte)
    (i : Addr) : NarrowLanes (absorb c v l ch i) := by
  obtain rfl | rfl := hv <;> exact narrowLanes_quad _

theorem narrowLanes_permute {l : Lanes} (h : NarrowLanes l) : NarrowLanes (permute l) := by
  obtain ⟨hw, hx, hy, hz⟩ := h
  exact ⟨hw, hz, hx, hy⟩

/-- R144: fold mode writes OUT0 alone and spread mode is the mode of SPREAD = 1; at W = 32 every word is a zero-extended
lane. -/
theorem outsShape_finalOuts {c : Cfg} {s : State} {v : Variant} (hv : variantOf s.opl = some v) (l : Lanes) :
    OutsShape (finish (finalOuts c v l) s) := by
  simp only [OutsShape, finish_opl, finish_out, variantOf_eq_some hv]
  cases v
  · simp [finalOuts, foldOuts]
  · exact ⟨fun h => absurd h (by decide), by simp [finalOuts, foldOuts]⟩
  · exact ⟨by simp [finalOuts, spreadOuts], fun h => absurd h (by decide)⟩
  · exact ⟨fun h => absurd h (by decide), fun h => absurd h (by decide)⟩

theorem outsShape_mix32Outs {s : State} (ho : s.opl = 0b100) (c : Cfg) (w : Word64) :
    OutsShape (finish (mix32Outs c w) s) := by
  simp [OutsShape, ho, mix32Outs]

theorem outsShape_mix64Outs {s : State} (ho : s.opl = 0b101) (c : Cfg) (w : Word64) :
    OutsShape (finish (mix64Outs c w) s) := by
  simp [OutsShape, ho, mix64Outs]

/-! ### The host's actions, refusals and reset -/

/-- The agenda, the read data and the count of draws are no part of the invariant. -/
theorem State.Inv.hostData {s : State} (hi : s.Inv) (w : Word64) (d : Nat) (ag : List Turn) :
    ({ s with rdata := w, draws := d, agenda := ag } : State).Inv := { hi with }

theorem State.Inv.setAgenda {s : State} (hi : s.Inv) (rest : List Turn) : (Machine.setAgenda rest s).Inv := { hi with }

theorem State.Inv.refuse {s : State} (hi : s.Inv) (r : RefusalCode) : (Machine.refuse r s).Inv := by
  have hrec : RefusalRecord (Machine.refuse r s) := by
    obtain ⟨he, -⟩ | ⟨he, hcode⟩ := hi.refusalRecord
    · cases r <;> simp [RefusalRecord, he, RefusalCode.code]
    · simpa [RefusalRecord, he] using hcode
  rw [refuse_eq] at hrec ⊢
  exact { hi with refusalRecord := hrec }

theorem State.Inv.clearErr {s : State} (hi : s.Inv) : (Machine.clearErr s).Inv :=
  { hi with refusalRecord := .inl ⟨rfl, rfl⟩ }

theorem State.Inv.plainWrite {s : State} (hi : s.Inv) (n : Nat) (v : Word64) : (Machine.plainWrite n v s).Inv := by
  obtain ⟨-, h⟩ | ⟨-, h⟩ | ⟨-, h⟩ | ⟨-, h⟩ | h := plainWrite_cases n v s <;> rw [h]
  · exact hi.clearErr
  · exact { hi with }
  · exact { hi with }
  · exact { hi with }
  · exact hi

theorem State.Inv.memSet {s : State} (hi : s.Inv) (a : Addr) (b : Byte) : (Machine.memSet a b s).Inv :=
  { hi with memory := memSet_wf hi.memory }

theorem State.Inv.kindSet {s : State} (hi : s.Inv) (a : Addr) (k : AddrKind) : (Machine.kindSet a k s).Inv :=
  { hi with kinds := kindSet_wf hi.kinds }

/-- R35, R200: the reset event leaves no command, so no latch is constrained. -/
theorem inv_resetEvent {s : State} (hm : Memory.wf s.mem) (hk : sparseWf AddrKind.plain s.kinds) :
    (resetEvent s).Inv where
  memory := hm
  kinds := hk
  refusalRecord := .inl ⟨rfl, rfl⟩
  command := by simp
  opcode h := absurd rfl h
  hashLatches h := by cases h
  mixLatches h := by cases h
  narrowLanes h := by cases h
  outsShape h := by cases h

/-- Settles O46: State.reset is what the reset event makes of itself. -/
theorem invariantAtReset : Obligations.InvariantAtReset :=
  inv_resetEvent (s := State.reset) (by decide) (by decide)

/-! ### Acceptance -/

theorem toNat_encode_lt (i : Instr) : (encode i).toNat < 6 := by cases i <;> decide

/-- R160, R161: the range check is what the window of the latches needs, and I = 0 fits the phase it starts in. -/
theorem hashLatches_acceptHash {s : State} (c : Cfg) (v : Variant) (hr : s.base.toNat + s.len.toNat ≤ 2 ^ AW) :
    HashLatches v (acceptHash c v s) := by
  obtain ⟨hp, hlen⟩ | ⟨hp, hlen⟩ := acceptHash_phase c v s
  · refine ⟨hr, fun _ => ⟨hlen, rfl⟩, ?_, ?_, ?_⟩ <;> rw [hp] <;> exact nofun
  · have hoff : (acceptHash c v s).i.toNat = nFull v s.len.toNat * chunkSize v := by simp [nFull_eq_zero hlen]
    refine ⟨hr, ?_, ?_, fun _ => hoff, fun _ => hoff⟩ <;> rw [hp] <;> exact nofun

theorem State.Inv.acceptHash {s : State} (hi : s.Inv) (c : Cfg) (v : Variant)
    (hr : s.base.toNat + s.len.toNat ≤ 2 ^ AW) : (Machine.acceptHash c v s).Inv where
  memory := hi.memory
  kinds := hi.kinds
  refusalRecord := hi.refusalRecord
  command := toNat_encode_lt _
  opcode _ := rfl
  hashLatches _ := ⟨v, opField_encode_commandOf v, hashLatches_acceptHash c v hr⟩
  mixLatches h := by
    obtain ⟨hp, -⟩ | ⟨hp, -⟩ := acceptHash_phase c v s <;> rw [hp] at h <;> cases h
  narrowLanes _ h := narrowLanes_seeds c (narrow_variant (opField_encode_commandOf v) h)
  outsShape h := by
    obtain ⟨hp, -⟩ | ⟨hp, -⟩ := acceptHash_phase c v s <;> rw [hp] at h <;> cases h

theorem State.Inv.acceptMix {s : State} (hi : s.Inv) {i : Instr} (him : i = .mix32 ∨ i = .mix64) :
    (Machine.acceptMix i s).Inv where
  memory := hi.memory
  kinds := hi.kinds
  refusalRecord := hi.refusalRecord
  command := toNat_encode_lt _
  opcode _ := rfl
  hashLatches h := by cases h
  mixLatches _ := by
    obtain rfl | rfl := him
    · exact .inl rfl
    · exact .inr rfl
  narrowLanes h := by cases h
  outsShape h := by cases h

theorem State.Inv.exec {s t : State} {i : Instr} (hi : s.Inv) (h : Machine.exec i s = .next t) : t.Inv := by
  obtain ⟨-, rfl⟩ | ⟨-, rfl⟩ | ⟨-, v, -, hr, -, rfl⟩ | ⟨-, him, rfl⟩ := exec_next h
  · exact hi.refuse _
  · exact hi.refuse _
  · exact hi.acceptHash _ v hr
  · exact hi.acceptMix him

theorem State.Inv.commandWrite {s t : State} {v : Word64} (hi : s.Inv) (h : Machine.commandWrite v s = .next t) :
    t.Inv := by
  obtain ⟨-, rfl⟩ | ⟨-, ⟨-, rfl⟩ | ⟨i, -, hexec⟩⟩ := commandWrite_next h
  · exact hi.refuse _
  · exact hi.refuse _
  · exact hi.exec hexec

theorem State.Inv.hostStep {s t : State} {a : HostAct} (hi : s.Inv) (h : Machine.hostStep a s = .next t) : t.Inv := by
  obtain ⟨v, -, h⟩ | ⟨n, v, -, -, rfl⟩ | ⟨x, b, -, rfl⟩ | ⟨x, k, -, rfl⟩ | ⟨-, w, d, ag, rfl, -⟩ := hostStep_next h
  · exact hi.commandWrite h
  · exact hi.plainWrite n v
  · exact hi.memSet x b
  · exact hi.kindSet x k
  · exact hi.hostData w d ag

/-! ### The engine's steps -/

/-- R162: after TERM the offset is 0, and L > C leaves the loop a chunk. -/
theorem State.Inv.afterTerm {s : State} {v : Variant} (hi : s.Inv) (hp : s.ph = .term)
    (hv : variantOf s.opl = some v) (c : Cfg) (ch : List Byte) : (Machine.afterTerm c v s ch).Inv := by
  have hh : s.hashing = true := by simp [State.hashing, hp]
  obtain ⟨hspace, hterm, -⟩ := latches_of_inv hi hh hv
  obtain ⟨hlen, h0⟩ := hterm hp
  have hone : chunkSize v ≤ nFull v s.lenl.toNat * chunkSize v := Nat.le_mul_of_pos_left _ (nFull_pos hlen)
  have hlatch : HashLatches v (Machine.afterTerm c v s ch) := by simp [HashLatches, hspace, hlen, h0, hone]
  exact { hi with
    opcode := fun _ => hi.opcode (by simp [hp])
    hashLatches := fun _ => ⟨v, hv, hlatch⟩
    mixLatches := by simp
    narrowLanes := fun _ ho => narrowLanes_permute (narrowLanes_absorb c (narrow_variant hv ho) ..)
    outsShape := by simp }

/-- A multiple of C below n * C leaves room for another C bytes. -/
theorem add_chunk_le {v : Variant} {a n : Nat} (hd : chunkSize v ∣ a) (h : a < n * chunkSize v) :
    a + chunkSize v ≤ n * chunkSize v := by
  obtain ⟨k, rfl⟩ := hd
  rw [Nat.mul_comm n] at h ⊢
  rw [← Nat.mul_succ]
  exact Nat.mul_le_mul_left _ (Nat.lt_of_mul_lt_mul_left h)

/-- R163: a LOOP step keeps I a multiple of C, and goes on only while a whole chunk is left before n_full * C. -/
theorem hashLatches_afterLoop {s : State} {v : Variant} (hl : HashLatches v s) (hp : s.ph = .loop) (c : Cfg)
    (ch : List Byte) : HashLatches v (afterLoop c v s ch) := by
  obtain ⟨hspace, -, hloop, -⟩ := hl
  obtain ⟨hlen, hmod, hoff⟩ := hloop hp
  have hi' := toNat_loop_offset hoff
  refine ⟨hspace, ?_, fun h => ⟨hlen, ?_, ?_⟩, ?_, ?_⟩
  · rw [afterLoop_ph]; split <;> simp
  · rw [afterLoop_i, hi', Nat.add_mod_right, hmod]
  · have hne : s.i.toNat + chunkSize v ≠ nFull v s.lenl.toNat * chunkSize v := by
      intro he
      simp [he] at h
    have hdvd : chunkSize v ∣ s.i.toNat + chunkSize v :=
      Nat.dvd_add (Nat.dvd_of_mod_eq_zero hmod) (Nat.dvd_refl _)
    rw [afterLoop_i, hi', afterLoop_lenl]
    exact add_chunk_le hdvd (lt_of_le_of_ne hoff hne)
  · rw [afterLoop_ph, afterLoop_i, hi', afterLoop_lenl]
    split
    · next he => exact fun _ => he
    · simp
  · rw [afterLoop_ph]; split <;> simp

theorem State.Inv.afterLoop {s : State} {v : Variant} (hi : s.Inv) (hp : s.ph = .loop)
    (hv : variantOf s.opl = some v) (c : Cfg) (ch : List Byte) : (Machine.afterLoop c v s ch).Inv := by
  have hh : s.hashing = true := by simp [State.hashing, hp]
  have hlatch := hashLatches_afterLoop (latches_of_inv hi hh hv) hp c ch
  exact { hi with
    opcode := fun _ => hi.opcode (by simp [hp])
    hashLatches := fun _ => ⟨v, hv, hlatch⟩
    mixLatches := by rw [afterLoop_ph]; split <;> simp
    narrowLanes := fun _ ho => narrowLanes_permute (narrowLanes_absorb c (narrow_variant hv ho) ..)
    outsShape := by rw [afterLoop_ph]; split <;> simp }

theorem State.Inv.afterTail {s : State} {v : Variant} (hi : s.Inv) (hp : s.ph = .tail)
    (hv : variantOf s.opl = some v) (c : Cfg) (bytes : List Byte) : (Machine.afterTail c v s bytes).Inv := by
  have hh : s.hashing = true := by simp [State.hashing, hp]
  obtain ⟨hspace, -, -, htail, -⟩ := latches_of_inv hi hh hv
  have hlatch : HashLatches v (Machine.afterTail c v s bytes) := by simp [HashLatches, hspace, htail hp]
  exact { hi with
    opcode := fun _ => hi.opcode (by simp [hp])
    hashLatches := fun _ => ⟨v, hv, hlatch⟩
    mixLatches := by simp
    narrowLanes := fun _ ho => narrowLanes_absorb c (narrow_variant hv ho) ..
    outsShape := by simp }

/-- R165, R166: in DONE only the shape of the result is asked for. -/
theorem State.Inv.finish {s : State} (hi : s.Inv) (hp : s.ph ≠ .idle) {o : Outs}
    (ho : OutsShape (Machine.finish o s)) : (Machine.finish o s).Inv :=
  { hi with
    opcode := fun _ => hi.opcode hp
    hashLatches := fun h => by cases h
    mixLatches := fun h => by cases h
    narrowLanes := fun h => by cases h
    outsShape := fun _ => ho }

theorem State.Inv.engineStep {s t : State} {c : Cfg} (hi : s.Inv) (h : Machine.engineStep c s = .next t) : t.Inv := by
  obtain rfl | ⟨v, hp, hv, -, rfl⟩ | ⟨v, hp, hv, -, rfl⟩ | ⟨v, hp, hv, -, rfl⟩ | ⟨v, hp, hv, rfl⟩ |
    ⟨hp, ho, rfl⟩ | ⟨hp, ho, rfl⟩ := engineStep_next h
  · exact hi
  · exact hi.afterTerm hp hv c _
  · exact hi.afterLoop hp hv c _
  · exact hi.afterTail hp hv c _
  · exact hi.finish (by simp [hp]) (outsShape_finalOuts hv _)
  · exact hi.finish (by simp [hp]) (outsShape_mix32Outs ho c _)
  · exact hi.finish (by simp [hp]) (outsShape_mix64Outs ho c _)

/-- Settles O47: whoever takes the turn, its action keeps the invariant. -/
theorem everyStepKeepsTheInvariant : Obligations.EveryStepKeepsTheInvariant := by
  intro s t hi h
  obtain ⟨rest, -, h⟩ | ⟨a, rest, -, h⟩ | ⟨rest, -, rfl⟩ := step_next h
  · exact (hi.setAgenda rest).engineStep h
  · exact (hi.setAgenda rest).hostStep h
  · exact inv_resetEvent hi.memory hi.kinds

/-! ### No fault -/

/-- R162: the TERM step, past its guard, is a step over its reads. -/
theorem engineStep_term_eq {c : Cfg} {s : State} {v : Variant} (hp : s.ph = .term) (hv : variantOf s.opl = some v)
    (hg : chunkSize v < s.lenl.toNat) : engineStep c s = withBytes s (stepAddrs s) (afterTerm c v s) := by
  simp only [engineStep, hp, stepTerm, hv, hg, if_true, stepAddrs]

/-- R163: the LOOP step, past its guard. -/
theorem engineStep_loop_eq {c : Cfg} {s : State} {v : Variant} (hp : s.ph = .loop) (hv : variantOf s.opl = some v)
    (hg : s.i.toNat + chunkSize v ≤ nFull v s.lenl.toNat * chunkSize v) :
    engineStep c s = withBytes s (stepAddrs s) (afterLoop c v s) := by
  simp only [engineStep, hp, stepLoop, hv, hg, if_true, stepAddrs]

/-- R164: the TAIL step, past its guard. -/
theorem engineStep_tail_eq {c : Cfg} {s : State} {v : Variant} (hp : s.ph = .tail) (hv : variantOf s.opl = some v)
    (hg : s.i.toNat = nFull v s.lenl.toNat * chunkSize v) :
    engineStep c s = withBytes s (stepAddrs s) (afterTail c v s) := by
  simp only [engineStep, hp, stepTail, hv, hg, if_true, stepAddrs]

/-- R162 to R164: the invariant passes the guard of every phase that reads. -/
theorem engineStep_reads {s : State} (c : Cfg) (hi : s.Inv) (hp : s.ph = .term ∨ s.ph = .loop ∨ s.ph = .tail) :
    ∃ k, engineStep c s = withBytes s (stepAddrs s) k := by
  have hh : s.hashing = true := by obtain hp | hp | hp := hp <;> simp [State.hashing, hp]
  obtain ⟨v, hv, -, hterm, hloop, htail, -⟩ := hi.hashLatches hh
  obtain hp | hp | hp := hp
  · exact ⟨_, engineStep_term_eq hp hv (hterm hp).1⟩
  · obtain ⟨-, -, hoff⟩ := hloop hp
    exact ⟨_, engineStep_loop_eq hp hv hoff⟩
  · exact ⟨_, engineStep_tail_eq hp hv (htail hp)⟩

/-- R50, R54: a step reads inside the input space. -/
theorem stepAddrs_lt {s : State} (hi : s.Inv) : ∀ a ∈ stepAddrs s, a < 2 ^ AW := by
  intro a ha
  obtain ⟨v, -, hphase⟩ := mem_stepAddrs ha
  have hh : s.hashing = true := by obtain ⟨hp, -⟩ | ⟨hp, -⟩ | ⟨hp, -⟩ := hphase <;> simp [State.hashing, hp]
  obtain ⟨-, -, hspace, -⟩ := hi.hashLatches hh
  exact (stepAddrs_in_window hi a ha).2.trans_le hspace

/-- U9: the invariant leaves no dead element to read in any phase. -/
theorem engineStep_ne_fault {c : Cfg} {s : State} {r : Fault} (hi : s.Inv) : engineStep c s ≠ .fault r := by
  have hreads (hp : s.ph = .term ∨ s.ph = .loop ∨ s.ph = .tail) : engineStep c s ≠ .fault r := by
    obtain ⟨k, hk⟩ := engineStep_reads c hi hp
    rw [hk]
    exact withBytes_ne_fault (stepAddrs_lt hi)
  cases hp : s.ph with
  | idle => simp [engineStep, hp]
  | term => exact hreads (.inl hp)
  | loop => exact hreads (.inr (.inl hp))
  | tail => exact hreads (.inr (.inr hp))
  | final =>
    obtain ⟨v, hv, -⟩ := hi.hashLatches (by simp [State.hashing, hp])
    simp [engineStep_final hp hv]
  | mixp =>
    obtain ho | ho := hi.mixLatches hp
    · simp [engineStep_mixp_mix32 hp ho]
    · simp [engineStep_mixp_mix64 hp ho]
  | done => simp [engineStep, hp]

theorem commandWrite_ne_fault {v : Word64} {s : State} {r : Fault} : commandWrite v s ≠ .fault r := by
  unfold commandWrite
  split
  · simp
  · split
    · exact exec_ne_fault
    · simp

theorem hostStep_ne_fault {a : HostAct} {s : State} {r : Fault} : hostStep a s ≠ .fault r := by
  cases a with
  | regWrite n v =>
    by_cases hn : n = 0
    · subst hn; exact commandWrite_ne_fault
    · simp [hostStep, regWrite_of_ne_zero hn]
  | _ => simp [hostStep]

theorem step_ne_fault {s : State} {r : Fault} (hi : s.Inv) : step s ≠ .fault r := by
  unfold step
  split
  · exact engineStep_ne_fault hi
  · exact engineStep_ne_fault (hi.setAgenda _)
  · exact hostStep_ne_fault
  · simp

/-- Settles O48, by induction on the length of the run: every step keeps the invariant, and no step from it faults. -/
theorem noRunEverFaults : Obligations.NoRunEverFaults := by
  intro s n r hi
  induction n generalizing s with
  | zero => simp [Host.Core.run]
  | succ n ih =>
    cases hs : step s with
    | next t => rw [run_of_step hs]; exact ih t (everyStepKeepsTheInvariant s t hi hs)
    | fault r' => exact absurd hs (step_ne_fault hi)
    | refused r' =>
      have hs' : Sys2Proof.core.step s = .refused r' := hs
      simp [Host.Core.run, hs']

end Sys2Proof.Machine
end

section
/-! The command word (30_encoding.md R70 to R73): decode and encode agree on every 64-bit word. -/

namespace Sys2Proof.Machine

open Sys2Proof

/-- R70: a command word is its ZERO field above its OP field. -/
theorem zeroField_append_opField (v : Word64) : zeroField v ++ opField v = v :=
  (BitVec.extractLsb'_append_extractLsb'_eq_extractLsb' (start₁ := 0) (x := v) rfl).trans BitVec.extractLsb'_eq_self

/-- R73: a word that decodes to a command has a clear ZERO field. -/
theorem zeroField_of_decode {v : Word64} {i : Instr} (h : decode v = .ok i) : zeroField v = 0 := by
  by_contra hz
  cases (decode_of_zeroField_ne hz).symm.trans h

/-- R71: the eight words with a clear ZERO field. -/
theorem eq_encode_of_decode_op :
    ∀ (op : BitVec 3) (i : Instr), decode (0#61 ++ op) = .ok i → (0#61 ++ op : Word64) = encode i := by
  intro op i
  cases i <;> revert op <;> decide

theorem decode_encode (i : Instr) : decode (encode i) = .ok i := by cases i <;> decide

/-- Settles O2: the ZERO field of a word that decodes is clear, so only its OP field is left to compare. -/
theorem decodeInvertsEncodeBothWays : Obligations.DecodeInvertsEncodeBothWays := by
  refine fun v i => ⟨fun h => ?_, fun h => h ▸ decode_encode i⟩
  have hv : (0#61 ++ opField v : Word64) = v := by
    have hsplit := zeroField_append_opField v
    rwa [zeroField_of_decode h] at hsplit
  rw [← hv] at h ⊢
  exact eq_encode_of_decode_op _ i h

/-- Settles O1: the words are fixed, and the decoder is evaluated on each. -/
theorem opcodeMapWordsDecode : Obligations.OpcodeMapWordsDecode :=
  ⟨by decide, by decide, by decide, by decide, by decide, by decide, by decide, by decide, by decide⟩

end Sys2Proof.Machine
end

section
/-! Words and bytes: the rotations of 00_scope.md R6 bit by bit, `fetch` byte by byte (40_fetch.md R90, 20_memory.md R51),
the scratch fill, and the zero corner cases of the mixer. -/

namespace Sys2Proof.Machine

open Sys2Proof

/-! ### Rotations -/

/-- R6: bit k of a rotation to the left is bit k - r, counted around the word. -/
theorem getLsbD_rotl {n r k : Nat} (a : BitVec n) (hr : r < n) (hk : k < n) :
    (rotl a r).getLsbD k = a.getLsbD ((k + (n - r)) % n) := by
  rw [rotl_eq_rotateLeft a hr, BitVec.getLsbD_rotateLeft_of_le hr]
  by_cases hkr : k < r
  · rw [Nat.mod_eq_of_lt (by omega)]
    simp [hkr, Nat.add_comm]
  · have hwrap : k + (n - r) = k - r + n := by omega
    rw [hwrap, Nat.add_mod_right, Nat.mod_eq_of_lt (by omega)]
    simp [hkr, hk]

/-- Settles O4: a rotation to the right by r is one to the left by n - r. -/
theorem rotationsMoveBitsAround : Obligations.RotationsMoveBitsAround := by
  intro n r k a h0 hr hk
  refine ⟨getLsbD_rotl a hr hk, ?_⟩
  have hback : n - (n - r) = r := by omega
  rw [rotr, Nat.mod_eq_of_lt (by omega), getLsbD_rotl a (by omega) hk, hback]

/-! ### fetch -/

/-- R90: for whole bytes nothing of the little-endian value is cut. -/
theorem toNat_fetch {width : Nat} (hw : 8 * (width / 8) = width) (buf : List Byte) (off : Nat) :
    (fetch buf off width).toNat = littleEndian ((buf.drop off).take (width / 8)) := by
  have hlt : littleEndian ((buf.drop off).take (width / 8)) < 2 ^ width := by
    calc littleEndian ((buf.drop off).take (width / 8))
        < 256 ^ ((buf.drop off).take (width / 8)).length := littleEndian_lt _
      _ ≤ 256 ^ (width / 8) := Nat.pow_le_pow_right (by decide) (List.length_take_le ..)
      _ = 2 ^ width := by rw [show 256 = 2 ^ 8 from rfl, ← Nat.pow_mul, hw]
  rw [fetch, BitVec.toNat_ofNat, Nat.mod_eq_of_lt hlt]

/-- Settles O5: byte k of the little-endian value of the window is the window's k-th byte. -/
theorem fetchIsLittleEndian : Obligations.FetchIsLittleEndian := by
  intro buf off width k hw h hk
  have hlen : k < ((buf.drop off).take (width / 8)).length := by simp; omega
  apply BitVec.eq_of_toNat_eq
  rw [BitVec.extractLsb'_toNat, toNat_fetch (by omega), Nat.shiftRight_eq_div_pow, Nat.pow_mul]
  exact (littleEndian_byte _ k hlen).trans (by simp)

/-- Settles O6: the window of 8 bytes is that of the low 4 followed by that of the high 4. -/
theorem wideFetchIsTwoNarrowFetches : Obligations.WideFetchIsTwoNarrowFetches := by
  intro buf off h
  have hsplit : (buf.drop off).take 8 = (buf.drop off).take 4 ++ (buf.drop (off + 4)).take 4 := by
    rw [show 8 = 4 + 4 from rfl, List.take_add, List.drop_drop]
  have hlen : ((buf.drop off).take 4).length = 4 := by simp; omega
  apply BitVec.eq_of_toNat_eq
  rw [toNat_cat32, toNat_fetch (by decide), toNat_fetch (by decide), toNat_fetch (by decide)]
  simp only [Nat.reduceDiv, hsplit, littleEndian_append, hlen]
  omega

/-! ### The scratch fill -/

/-- Settles O13: the chunk of C bytes is the padded message, and no byte beyond it is written. -/
theorem scratchFillPadsWithZeros : Obligations.ScratchFillPadsWithZeros := by
  intro v bytes t hb
  exact ⟨scratchChunk_fillScratch (chunkSize_le v) hb t, fun k hk h => fillScratch_of_size_le bytes t hk h⟩

/-! ### Zero -/

/-- Settles O8: every step of the mixer maps 0 to 0, and so does each link of the fold's chain. -/
theorem mixerAndFoldOfZero : Obligations.MixerAndFoldOfZero := fun c =>
  ⟨mix32_zero c, mix64_zero c, foldLanes_zero (mix32_zero c), foldLanes_zero (mix64_zero c)⟩

end Sys2Proof.Machine
end

section
/-! The engine's steps (45_commands.md R159 to R167): what they leave unchanged, what they depend on, the LOOP step, the
stall at an address that never answers, and the progress of a running command. -/

namespace Sys2Proof.Machine

open Sys2Proof

/-! ### The frame -/

/-- R25, R30, R56: all that no engine step writes. -/
structure EngineFrame (s t : State) : Prop where
  lcmd : t.lcmd = s.lcmd
  opl : t.opl = s.opl
  basel : t.basel = s.basel
  lenl : t.lenl = s.lenl
  mixl : t.mixl = s.mixl
  base : t.base = s.base
  len : t.len = s.len
  mixin : t.mixin = s.mixin
  err : t.err = s.err
  errcode : t.errcode = s.errcode
  mem : t.mem = s.mem
  kinds : t.kinds = s.kinds
  agenda : t.agenda = s.agenda
  rdata : t.rdata = s.rdata
  draws : t.draws = s.draws

theorem EngineFrame.refl (s : State) : EngineFrame s s := by constructor <;> rfl

theorem EngineFrame.trans {s t u : State} (h : EngineFrame s t) (h' : EngineFrame t u) : EngineFrame s u := by
  obtain ⟨⟩ := h
  obtain ⟨⟩ := h'
  constructor <;> simp [*]

theorem engineStep_frame {c : Cfg} {s t : State} (h : engineStep c s = .next t) : EngineFrame s t := by
  obtain rfl | ⟨v, -, -, -, rfl⟩ | ⟨v, -, -, -, rfl⟩ | ⟨v, -, -, -, rfl⟩ | ⟨v, -, -, rfl⟩ | ⟨-, -, rfl⟩ | ⟨-, -, rfl⟩ :=
    engineStep_next h
  all_goals constructor <;> rfl

/-- R20, R23, R24, R31: the phases that may write T, OUT0..OUT3, the lanes and I. -/
theorem engineStep_writes {c : Cfg} {s t : State} (h : engineStep c s = .next t) :
    (s.ph ≠ .tail → t.t = s.t) ∧ (s.ph ≠ .final → s.ph ≠ .mixp → t.out = s.out) ∧
    (s.ph = .final ∨ s.ph = .mixp → t.lanes = s.lanes ∧ t.i = s.i) ∧ (s.ph ≠ .loop → t.i = s.i) := by
  obtain rfl | ⟨v, hp, -, -, rfl⟩ | ⟨v, hp, -, -, rfl⟩ | ⟨v, hp, -, -, rfl⟩ | ⟨v, hp, -, rfl⟩ | ⟨hp, -, rfl⟩ |
    ⟨hp, -, rfl⟩ := engineStep_next h
  · simp
  all_goals simp [hp]

/-- Settles O38: the frame field by field, and the writes by the phase. -/
theorem engineStepFrame : Obligations.EngineStepFrame := by
  intro c s t h
  have hf := engineStep_frame h
  exact ⟨hf.lcmd, hf.opl, hf.basel, hf.lenl, hf.mixl, hf.base, hf.len, hf.mixin, hf.err, hf.errcode,
    fun a => congrArg (memByte · a) hf.mem, hf.kinds, hf.agenda, hf.rdata, hf.draws, engineStep_writes h⟩

/-! ### What a step depends on -/

/-- The engine of `s` beside the host and the input space of `e`. -/
def underHost (e s : State) : State :=
  { s with
    base := e.base
    len := e.len
    mixin := e.mixin
    err := e.err
    errcode := e.errcode
    mem := e.mem
    agenda := e.agenda
    rdata := e.rdata }

@[simp] theorem underHost_ph (e s : State) : (underHost e s).ph = s.ph := rfl
@[simp] theorem underHost_i (e s : State) : (underHost e s).i = s.i := rfl
@[simp] theorem underHost_opl (e s : State) : (underHost e s).opl = s.opl := rfl
@[simp] theorem underHost_lenl (e s : State) : (underHost e s).lenl = s.lenl := rfl

/-- A function applied to the next state, where there is one. -/
def onNext (f : State → State) : Host.Outcome State Fault Refusal → Host.Outcome State Fault Refusal
  | .next t => .next (f t)
  | .fault r => .fault r
  | .refused r => .refused r

theorem withBytes_underHost {e s : State} {as : List Nat} {k k' : List Byte → State}
    (hm : ∀ a ∈ as, memByte e.mem a = memByte s.mem a) (hk : ∀ bs, k' bs = underHost e (k bs)) :
    withBytes (underHost e s) as k' = onNext (underHost e) (withBytes s as k) := by
  have hreads : memReads (underHost e s) as = memReads s as := memReads_congr rfl hm
  simp only [withBytes, hreads]
  cases hr : memReads s as with
  | data bs => simp [onNext, hk]
  | noAnswer => rfl
  | sideEffect => rfl
  | outside => rfl

/-- R25, R53, R205: an engine step reads no register of the host, and no byte of memory but those at its addresses. -/
theorem engineStep_underHost (c : Cfg) {e s : State} (hm : ∀ a ∈ stepAddrs s, memByte e.mem a = memByte s.mem a) :
    engineStep c (underHost e s) = onNext (underHost e) (engineStep c s) := by
  cases hp : s.ph with
  | idle => simp [engineStep, hp, onNext]
  | term =>
    simp only [engineStep, underHost_ph, hp, stepTerm, underHost_opl, underHost_lenl]
    split
    · rfl
    · next v hv =>
      by_cases hg : chunkSize v < s.lenl.toNat
      · simp only [hg, if_true]
        exact withBytes_underHost (by rwa [stepAddrs_term hp hv] at hm) fun _ => rfl
      · simp only [hg, if_false]
        rfl
  | loop =>
    simp only [engineStep, underHost_ph, hp, stepLoop, underHost_opl, underHost_i, underHost_lenl]
    split
    · rfl
    · next v hv =>
      by_cases hg : s.i.toNat + chunkSize v ≤ nFull v s.lenl.toNat * chunkSize v
      · simp only [hg, if_true]
        exact withBytes_underHost (by rwa [stepAddrs_loop hp hv] at hm) fun _ => rfl
      · simp only [hg, if_false]
        rfl
  | tail =>
    simp only [engineStep, underHost_ph, hp, stepTail, underHost_opl, underHost_i, underHost_lenl]
    split
    · rfl
    · next v hv =>
      by_cases hg : s.i.toNat = nFull v s.lenl.toNat * chunkSize v
      · simp only [hg, if_true]
        exact withBytes_underHost (by rwa [stepAddrs_tail hp hv] at hm) fun _ => rfl
      · simp only [hg, if_false]
        rfl
  | final =>
    simp only [engineStep, underHost_ph, hp, stepFinal, underHost_opl]
    split <;> rfl
  | mixp =>
    simp only [engineStep, underHost_ph, hp, stepMixp, underHost_opl]
    by_cases h4 : s.opl = 0b100
    · simp only [h4, if_true]
      rfl
    · by_cases h5 : s.opl = 0b101 <;> simp only [h4, h5, if_true, if_false] <;> rfl
  | done => simp [engineStep, hp, onNext]

/-- Settles O34: the host of the other memory's state is `s`'s own, which the step leaves as it is. -/
theorem engineStepReadsOnlyItsAddresses : Obligations.EngineStepReadsOnlyItsAddresses := by
  intro c s m hm
  refine (engineStep_underHost c (e := { s with mem := m }) hm).trans ?_
  cases h : engineStep c s with
  | next t =>
    have hf := engineStep_frame h
    simp [onNext, underHost, ← hf.base, ← hf.len, ← hf.mixin, ← hf.err, ← hf.errcode, ← hf.agenda, ← hf.rdata]
  | fault r => rfl
  | refused r => rfl

/-- Settles O37: the memory beside the other host's registers is `s`'s own, which the step leaves as it is. -/
theorem runningCommandIgnoresHostRegisters : Obligations.RunningCommandIgnoresHostRegisters := by
  intro c s base len mixin err code rdata agenda host
  refine (engineStep_underHost c (e := host s) (s := s) fun _ _ => rfl).trans ?_
  cases h : engineStep c s with
  | next t => simp [onNext, underHost, host, ← (engineStep_frame h).mem]
  | fault r => rfl
  | refused r => rfl

/-! ### The LOOP step -/

/-- Settles O30: the invariant keeps the chunk inside the loop, so it lies in the window and I + C does not wrap. -/
theorem loopStepAbsorbsOneChunk : Obligations.LoopStepAbsorbsOneChunk := by
  intro c s v hi hp hv hans
  obtain ⟨hspace, -, hloop, -⟩ := latches_of_inv hi (by simp [State.hashing, hp]) hv
  obtain ⟨-, -, hoff⟩ := hloop hp
  have hw : WindowAnswers s := ⟨hspace, hans⟩
  have hfit := hoff.trans (nFull_mul_le v s.lenl.toNat)
  have hadd := toNat_loop_offset hoff
  refine ⟨(loopAddrs v s).map (memByte s.mem), _, ?_,
    engineStep_loop hp hv hoff (hw.plain (loopAddrs_in_window hfit)), ?_, hadd⟩
  · simp [loopAddrs, addrsFrom]
  · simp [afterLoop, hadd]

/-! ### The stall -/

/-- U6: a step over reads of which one is never answered, every one before it plain, does not happen. -/
theorem withBytes_noAnswer {s : State} {before after : List Nat} {a : Nat} {k : List Byte → State}
    (hb : ∀ b ∈ before, b < 2 ^ AW ∧ kindAt s b = .plain) (ha : a < 2 ^ AW) (hk : kindAt s a = .silent) :
    withBytes s (before ++ a :: after) k = .next s := by
  simp [withBytes, memReads_noAnswer hb ha hk]

/-- Settles O36: only TERM, LOOP and TAIL have addresses to read, and the invariant passes their guards. -/
theorem unansweredReadStallsTheEngine : Obligations.UnansweredReadStallsTheEngine := by
  intro c s before a after hi hs hb hk
  have hmem : a ∈ stepAddrs s := by simp [hs]
  obtain ⟨v, -, hphase⟩ := mem_stepAddrs hmem
  obtain ⟨k, hstep⟩ := engineStep_reads c hi (hphase.imp And.left (Or.imp And.left And.left))
  have hin := stepAddrs_lt hi
  rw [hs] at hstep hin
  rw [hstep]
  exact withBytes_noAnswer (fun b h => ⟨hin b (by simp [h]), hb b h⟩) (hin a (by simp)) hk

/-! ### Progress -/

theorem variantOf_mix {o : BitVec 3} (h : o = 4 ∨ o = 5) : variantOf o = none := by
  obtain rfl | rfl := h <;> rfl

theorem remainingSteps_mixp {s : State} (hp : s.ph = .mixp) (ho : s.opl = 4 ∨ s.opl = 5) :
    remainingSteps s = 1 := by
  simp [remainingSteps, hp, variantOf_mix ho]

/-- R163: each LOOP step takes one of the steps that remain, the last one by ending the loop. -/
theorem remainingSteps_afterLoop {c : Cfg} {v : Variant} {s : State} {ch : List Byte} (hp : s.ph = .loop)
    (hv : variantOf s.opl = some v) (hmod : s.i.toNat % chunkSize v = 0)
    (hoff : s.i.toNat + chunkSize v ≤ nFull v s.lenl.toNat * chunkSize v) :
    remainingSteps s = remainingSteps (afterLoop c v s ch) + 1 := by
  have hpos := chunkSize_pos v
  obtain ⟨k, hk⟩ := Nat.dvd_of_mod_eq_zero hmod
  rw [Nat.mul_comm] at hk
  have hlt : k + 1 ≤ nFull v s.lenl.toNat := by
    rw [hk, ← Nat.succ_mul] at hoff
    exact Nat.le_of_mul_le_mul_right hoff hpos
  rw [remainingSteps_loop hp hv, hk, Nat.mul_div_cancel _ hpos]
  by_cases hlast : s.i.toNat + chunkSize v = nFull v s.lenl.toNat * chunkSize v
  · have hn : k + 1 = nFull v s.lenl.toNat := by
      rw [hk, ← Nat.succ_mul] at hlast
      exact Nat.eq_of_mul_eq_mul_right hpos hlast
    rw [remainingSteps_tail (s := afterLoop c v s ch) (by simp [hlast]) hv]
    omega
  · rw [remainingSteps_loop (s := afterLoop c v s ch) (by simp [hlast]) hv, afterLoop_i, toNat_loop_offset hoff, hk, ← Nat.succ_mul,
      Nat.mul_div_cancel _ hpos, afterLoop_lenl]
    omega

theorem remainingSteps_pos {s : State} (hi : s.Inv) (hb : s.busy = true) : 0 < remainingSteps s := by
  have hhash (hh : s.hashing = true) : 0 < remainingSteps s := by
    obtain ⟨v, hv, -⟩ := hi.hashLatches hh
    cases hp : s.ph <;> simp_all [remainingSteps, State.hashing]
  cases hp : s.ph with
  | mixp => simp [remainingSteps_mixp hp (hi.mixLatches hp)]
  | idle => simp [State.busy, hp] at hb
  | done => simp [State.busy, hp] at hb
  | _ => exact hhash (by simp [State.hashing, hp])

theorem engineStep_ne_idle {c : Cfg} {s t : State} (h : engineStep c s = .next t) (hs : s.ph ≠ .idle) :
    t.ph ≠ .idle := by
  obtain rfl | ⟨v, -, -, -, rfl⟩ | ⟨v, -, -, -, rfl⟩ | ⟨v, -, -, -, rfl⟩ | ⟨v, -, -, rfl⟩ | ⟨-, -, rfl⟩ | ⟨-, -, rfl⟩ :=
    engineStep_next h
  · exact hs
  · simp
  · rw [afterLoop_ph]; split <;> simp
  all_goals simp

/-- R167, R207: on a window that answers every phase of a running command has its step, and it is one of those that
remain. -/
theorem engineStep_progress {c : Cfg} {s : State} (hi : s.Inv) (hb : s.busy = true)
    (hans : answersOn s s.basel.toNat (s.basel.toNat + s.lenl.toNat)) :
    ∃ t, engineStep c s = .next t ∧ remainingSteps s = remainingSteps t + 1 := by
  have hhash (hh : s.hashing = true) : ∃ v, variantOf s.opl = some v ∧ HashLatches v s ∧ WindowAnswers s := by
    obtain ⟨v, hv, hl⟩ := hi.hashLatches hh
    exact ⟨v, hv, hl, hl.1, hans⟩
  cases hp : s.ph with
  | idle => simp [State.busy, hp] at hb
  | term =>
    obtain ⟨v, hv, ⟨-, hterm, -⟩, hw⟩ := hhash (by simp [State.hashing, hp])
    obtain ⟨hlen, h0⟩ := hterm hp
    refine ⟨_, engineStep_term hp hv hlen (hw.plain (termAddrs_in_window hlen.le)), ?_⟩
    rw [remainingSteps_term hp hv, remainingSteps_loop (afterTerm_ph ..) (v := v) hv]
    simp [h0]
  | loop =>
    obtain ⟨v, hv, ⟨-, -, hloop, -⟩, hw⟩ := hhash (by simp [State.hashing, hp])
    obtain ⟨-, hmod, hoff⟩ := hloop hp
    exact ⟨_, engineStep_loop hp hv hoff (hw.plain (loopAddrs_in_window (hoff.trans (nFull_mul_le v _)))),
      remainingSteps_afterLoop hp hv hmod hoff⟩
  | tail =>
    obtain ⟨v, hv, ⟨-, -, -, htail, -⟩, hw⟩ := hhash (by simp [State.hashing, hp])
    refine ⟨_, engineStep_tail hp hv (htail hp) (hw.plain (tailAddrs_in_window s)), ?_⟩
    rw [remainingSteps_tail hp hv, remainingSteps_final (afterTail_ph ..) (v := v) hv]
  | final =>
    obtain ⟨v, hv, -⟩ := hhash (by simp [State.hashing, hp])
    refine ⟨_, engineStep_final hp hv, ?_⟩
    rw [remainingSteps_final hp hv, remainingSteps_done (finish_ph ..)]
  | mixp =>
    have hrest := remainingSteps_mixp hp (hi.mixLatches hp)
    obtain ho | ho := hi.mixLatches hp
    · exact ⟨_, engineStep_mixp_mix32 hp ho, by rw [hrest, remainingSteps_done (finish_ph ..)]⟩
    · exact ⟨_, engineStep_mixp_mix64 hp ho, by rw [hrest, remainingSteps_done (finish_ph ..)]⟩
  | done => simp [State.busy, hp] at hb

theorem busy_or_done {s : State} (h : s.ph ≠ .idle) : s.busy = true ∨ s.ph = .done := by
  cases hp : s.ph <;> simp_all [State.busy]

/-- Settles O49: the next state meets the invariant too, and in every running phase of it a step remains. -/
theorem everyEngineStepMakesProgress : Obligations.EveryEngineStepMakesProgress := by
  intro c s hi hb hans
  obtain ⟨t, ht, hrest⟩ := engineStep_progress (c := c) hi hb hans
  refine ⟨t, ht, hrest, fun h0 => ?_, fun hd => remainingSteps_done (isDone_iff.1 hd)⟩
  have hidle : s.ph ≠ .idle := fun hp => by simp [State.busy, hp] at hb
  obtain hbusy | hdone := busy_or_done (engineStep_ne_idle ht hidle)
  · exact absurd h0 (remainingSteps_pos (hi.engineStep ht) hbusy).ne'
  · exact isDone_iff.2 hdone

end Sys2Proof.Machine
end

section
/-! The host's registers (10_state.md R22 to R31): the bits of STATUS, what reads give, what a write of a register other
than CMD leaves unchanged, and the read turns of the host (45_commands.md R159). -/

namespace Sys2Proof.Machine

open Sys2Proof

/-! ### STATUS -/

theorem busy_iff {s : State} :
    s.busy = true ↔ s.ph = .term ∨ s.ph = .loop ∨ s.ph = .tail ∨ s.ph = .final ∨ s.ph = .mixp := by
  cases hp : s.ph <;> simp [State.busy, hp]

theorem idle_iff {s : State} : s.busy = false ∧ s.isDone = false ↔ s.ph = .idle := by
  cases hp : s.ph <;> simp [State.busy, State.isDone, hp]

/-- R28: the word of STATUS, bit by bit. -/
theorem statusWord_bits (code : BitVec 3) (err done busy : Bool) :
    let w : Word64 := 0#57 ++ code ++ 0#1 ++ BitVec.ofBool err ++ BitVec.ofBool done ++ BitVec.ofBool busy
    w.getLsbD 0 = busy ∧ w.getLsbD 1 = done ∧ w.getLsbD 2 = err ∧ w.getLsbD 3 = false ∧
      w.extractLsb' 4 3 = code ∧ w.extractLsb' 7 57 = 0 := by
  revert code err done busy
  decide

/-- Settles O24: the bits of the word, and BUSY and DONE by the phase. -/
theorem statusBits : Obligations.StatusBits := by
  intro s
  obtain ⟨hb, hd, he, h3, hcode, hrest⟩ := statusWord_bits s.errcode s.err s.isDone s.busy
  exact ⟨rfl, hb, hd, he, h3, hcode, hrest, busy_iff, isDone_iff, idle_iff⟩

/-! ### What a read gives -/

theorem outRead_fst (w : Word64) (s : State) :
    (outRead w s).1 = if s.isDone then w else Config.freeWord s.draws := by
  unfold outRead; split <;> rfl

theorem outRead_snd (w : Word64) (s : State) :
    (outRead w s).2 = if s.isDone then s else { s with draws := s.draws + 1 } := by
  unfold outRead; split <;> rfl

theorem outRead_of_done {s : State} (h : s.isDone = true) (w : Word64) : outRead w s = (w, s) := if_pos h

theorem outRead_of_not_done {s : State} (h : s.isDone = false) (w : Word64) :
    outRead w s = (Config.freeWord s.draws, { s with draws := s.draws + 1 }) := if_neg (by simp [h])

/-- R31: registers 8 to 11 are OUT0..OUT3. -/
theorem regRead_out {k : Nat} (hk : k < 4) (s : State) : regRead (8 + k) s = outRead (s.out.word k) s := by
  interval_cases k <;> rfl

/-- R31: a read draws a free value exactly for OUT0..OUT3 while DONE = 0. -/
theorem regRead_snd (n : Nat) (s : State) :
    (regRead n s).2 = { s with draws := if 8 ≤ n ∧ n ≤ 11 ∧ s.isDone = false then s.draws + 1 else s.draws } := by
  by_cases hout : 8 ≤ n ∧ n ≤ 11
  · obtain ⟨k, rfl⟩ := Nat.exists_eq_add_of_le hout.1
    rw [regRead_out (by omega), outRead_snd]
    cases hd : s.isDone <;> simp [hout.2]
  · have hdraw : ¬ (8 ≤ n ∧ n ≤ 11 ∧ s.isDone = false) := fun h => hout ⟨h.1, h.2.1⟩
    rw [if_neg hdraw]
    unfold regRead
    split
    case h_6 | h_7 | h_8 | h_9 => omega
    all_goals rfl

/-- R22, R25: the value read is a function of the phase, the registers the host may read, and the draws. -/
theorem regRead_fst_congr {s u : State} (hp : s.ph = u.ph) (hl : s.lcmd = u.lcmd) (hb : s.base = u.base)
    (hn : s.len = u.len) (hm : s.mixin = u.mixin) (he : s.err = u.err) (hc : s.errcode = u.errcode)
    (ho : s.isDone = true → s.out = u.out) (hd : s.draws = u.draws) (n : Nat) :
    (regRead n s).1 = (regRead n u).1 := by
  have hdone : u.isDone = s.isDone := by simp only [State.isDone, hp]
  have hbusy : u.busy = s.busy := by simp only [State.busy, hp]
  have hout {w w' : Word64} (hw : s.isDone = true → w = w') : (outRead w s).1 = (outRead w' u).1 := by
    rw [outRead_fst, outRead_fst, hdone, hd]
    split
    · next h => exact hw h
    · rfl
  unfold regRead
  split
  case h_6 | h_7 | h_8 | h_9 => exact hout fun h => by rw [ho h]
  · exact hl
  · simp only [statusWord, hc, he, hdone, hbusy]
  · simp only [hb]
  · simp only [hn]
  · exact hm
  · rfl

/-- Settles O27, by the numbers of the output registers. -/
theorem outputRegistersReadOnlyWhenDone : Obligations.OutputRegistersReadOnlyWhenDone := by
  intro s k hk
  refine ⟨fun v => regWrite_of_five_le (by omega) v s, fun hd => ?_, fun hd => ?_⟩
  · rw [regRead_out hk, outRead_of_done hd]
  · rw [regRead_out hk, outRead_of_not_done hd]

/-- Settles O28: none of the changed elements is among those a read is a function of. -/
theorem lanesAreInvisibleToTheHost : Obligations.LanesAreInvisibleToTheHost := by
  intro s n l b i basel lenl opl mixl
  exact regRead_fst_congr
    (s := { s with lanes := l, t := b, i := i, basel := basel, lenl := lenl, opl := opl, mixl := mixl }) (u := s)
    rfl rfl rfl rfl rfl rfl rfl (fun _ => rfl) rfl n

/-! ### The frame of the host's actions -/

/-- R25: the phase, the offset, the lanes, T, the latches and the output registers. -/
structure HostFrame (s u : State) : Prop where
  ph : u.ph = s.ph
  i : u.i = s.i
  lanes : u.lanes = s.lanes
  t : u.t = s.t
  lcmd : u.lcmd = s.lcmd
  opl : u.opl = s.opl
  basel : u.basel = s.basel
  lenl : u.lenl = s.lenl
  mixl : u.mixl = s.mixl
  out : u.out = s.out

theorem setAgenda_frame (rest : List Turn) (s : State) : HostFrame s (setAgenda rest s) := by constructor <;> rfl

theorem refuse_frame (r : RefusalCode) (s : State) : HostFrame s (refuse r s) := by constructor <;> simp

theorem plainWrite_frame (n : Nat) (v : Word64) (s : State) : HostFrame s (plainWrite n v s) := by
  obtain ⟨-, h⟩ | ⟨-, h⟩ | ⟨-, h⟩ | ⟨-, h⟩ | h := plainWrite_cases n v s <;> rw [h] <;> constructor <;> rfl

/-- A write of a register other than CMD touches only the host's registers. -/
theorem plainWrite_host (n : Nat) (v : Word64) (s : State) :
    (plainWrite n v s).mem = s.mem ∧ (plainWrite n v s).kinds = s.kinds ∧ (plainWrite n v s).agenda = s.agenda := by
  obtain ⟨-, h⟩ | ⟨-, h⟩ | ⟨-, h⟩ | ⟨-, h⟩ | h := plainWrite_cases n v s <;> rw [h] <;> exact ⟨rfl, rfl, rfl⟩

/-- R28 to R30: each of the four registers is written under its own number only. -/
theorem plainWrite_registers (n : Nat) (v : Word64) (s : State) :
    (n ≠ 1 → (plainWrite n v s).err = s.err ∧ (plainWrite n v s).errcode = s.errcode) ∧
    (n ≠ 2 → (plainWrite n v s).base = s.base) ∧ (n ≠ 3 → (plainWrite n v s).len = s.len) ∧
    (n ≠ 4 → (plainWrite n v s).mixin = s.mixin) := by
  obtain ⟨rfl, h⟩ | ⟨rfl, h⟩ | ⟨rfl, h⟩ | ⟨rfl, h⟩ | h := plainWrite_cases n v s <;> rw [h] <;> simp

/-- Settles O45: a write of a register other than CMD is a plain write, which moves no part of the engine. -/
theorem plainRegisterWriteFrame : Obligations.PlainRegisterWriteFrame := by
  intro s t n v hn h
  rw [regWrite_of_ne_zero hn] at h
  cases h
  have hf := plainWrite_frame n v s
  obtain ⟨hm, hk, ha⟩ := plainWrite_host n v s
  exact ⟨hf.ph, hf.i, hf.lanes, hf.t, hf.lcmd, hf.opl, hf.basel, hf.lenl, hf.mixl, hf.out,
    fun a => congrArg (memByte · a) hm, hk, ha, plainWrite_registers n v s⟩

/-! ### Read turns -/

/-- R26, R159: the whole next state of a register read. -/
theorem step_regRead {s : State} {n : Nat} {rest : List Turn} (h : s.agenda = .host (.regRead n) :: rest) :
    step s = .next { s with
      agenda := rest
      rdata := (regRead n s).1
      draws := if 8 ≤ n ∧ n ≤ 11 ∧ s.isDone = false then s.draws + 1 else s.draws } := by
  have hval : (regRead n (setAgenda rest s)).1 = (regRead n s).1 :=
    regRead_fst_congr (u := s) (s := setAgenda rest s) rfl rfl rfl rfl rfl rfl rfl (fun _ => rfl) rfl n
  rw [step_of_host h, hostStep, hostRead_eq, hval, regRead_snd]
  rfl

/-- R75: the whole next state of a poll. -/
theorem step_wait {s : State} {rest : List Turn} (h : s.agenda = .host .wait :: rest) :
    step s = .next { s with
      agenda := if s.isDone then rest else .engine :: .host .wait :: rest
      rdata := statusWord s } := by
  have hdone : (setAgenda rest s).isDone = s.isDone := rfl
  rw [step_of_host h, hostStep, hostWait, hdone]
  split <;> rfl

/-- R159: the whole next state of a read of a byte. -/
theorem step_memRead {s : State} {a : Addr} {rest : List Turn} (h : s.agenda = .host (.memRead a) :: rest) :
    step s = .next { s with
      agenda := rest
      rdata := if kindAt s a.toNat = .plain then (memByte s.mem a.toNat).setWidth 64 else Config.freeWord s.draws
      draws := if kindAt s a.toNat = .plain then s.draws else s.draws + 1 } := by
  have hkind : kindAt (setAgenda rest s) a.toNat = kindAt s a.toNat := rfl
  rw [step_of_host h, hostStep, hostMemRead, hkind]
  cases hk : kindAt s a.toNat <;> rfl

/-- Settles O58: the five plain reads, then one turn of each kind. -/
theorem hostReadTurns : Obligations.HostReadTurns :=
  ⟨fun _ => ⟨rfl, rfl, rfl, rfl, rfl⟩, fun _ _ _ h => step_regRead h, fun _ _ h => step_wait h,
    fun _ _ _ h => step_memRead h⟩

/-! ### Turns on the input space -/

/-- Settles O59: one sparse write each, of the contents or of the kinds. -/
theorem hostMemoryTurns : Obligations.HostMemoryTurns := by
  refine ⟨fun s a b rest hi h => ?_, fun s a k rest hi h => ?_⟩
  · exact ⟨_, step_of_host h, memByte_memSet_same (s := setAgenda rest s) hi.memory,
      fun x hx => memByte_memSet_other (s := setAgenda rest s) hx⟩
  · exact ⟨_, step_of_host h, rfl, kindAt_kindSet_same (s := setAgenda rest s) hi.kinds,
      fun x hx => kindAt_kindSet_other (s := setAgenda rest s) hx⟩

end Sys2Proof.Machine
end

section
/-! Issue and acceptance (45_commands.md R160, R161): the whole next state of an accepted command, what CMD reads back,
and the launches the model refuses (20_memory.md R57, R58; 93_implementation_defined.md U6, U8). -/

namespace Sys2Proof.Machine

open Sys2Proof

/-! ### Acceptance -/

/-- Settles O18: the launch checks pass, and the lanes are the variant's seeds at 64 bits. -/
theorem hashCommandsAreAccepted : Obligations.HashCommandsAreAccepted := by
  intro s v hb hr hside hsilent
  rw [exec_accepts_hash hb hr ⟨hside, hsilent⟩]
  cases v
  · rfl
  · simp [acceptHash, latch, seeds, uniformSeeds, Quad.lanes, freeOuts, opField]
  · rfl
  · rfl

/-- Settles O19: the only check a mixer test command meets is BUSY_CMD. -/
theorem mixCommandsAreAccepted : Obligations.MixCommandsAreAccepted := fun _ _ hi hb => exec_accepts_mix hi hb

/-! ### CMD -/

/-- R27: what a write of CMD can do, by whether it is accepted. -/
theorem commandWrite_frame_or_accepts {v : Word64} {s t : State} (h : commandWrite v s = .next t) :
    HostFrame s t ∨
    (s.busy = false ∧ t.busy = true ∧ t.lcmd = v ∧ ∃ i, decode v = .ok i ∧
      ((∃ w, i = commandOf w ∧ t = acceptHash Config.cfg w s) ∨ ((i = .mix32 ∨ i = .mix64) ∧ t = acceptMix i s))) := by
  obtain ⟨-, rfl⟩ | ⟨hb, ⟨-, rfl⟩ | ⟨i, hdec, hexec⟩⟩ := commandWrite_next h
  · exact .inl (refuse_frame _ s)
  · exact .inl (refuse_frame _ s)
  · have hv := (decodeInvertsEncodeBothWays v i).1 hdec
    obtain ⟨-, rfl⟩ | ⟨-, rfl⟩ | ⟨-, w, rfl, -, -, rfl⟩ | ⟨-, hm, rfl⟩ := exec_next hexec
    · exact .inl (refuse_frame _ s)
    · exact .inl (refuse_frame _ s)
    · exact .inr ⟨hb, acceptHash_busy .., hv.symm, _, hdec, .inl ⟨w, rfl, rfl⟩⟩
    · exact .inr ⟨hb, rfl, hv.symm, i, hdec, .inr ⟨hm, rfl⟩⟩

theorem HostFrame.busy {s t : State} (h : HostFrame s t) : t.busy = s.busy := by simp only [State.busy, h.ph]

/-- Settles O26: a refused write keeps the phase, so only an accepted one takes the engine from BUSY = 0 to BUSY = 1. -/
theorem commandRegisterReadsLastAccepted : Obligations.CommandRegisterReadsLastAccepted := by
  intro s t v h
  obtain hf | ⟨hb, ht, hv, -⟩ := commandWrite_frame_or_accepts h
  · refine ⟨fun hacc => ?_, fun _ => by simp [regRead, hf.lcmd]⟩
    rw [hf.busy] at hacc
    exact absurd (hacc.1.symm.trans hacc.2) (by decide)
  · exact ⟨fun _ => by simp [regRead, hv], fun hno => absurd ⟨hb, ht⟩ hno⟩

/-! ### Refused launches -/

theorem issueHash_in_range {s : State} (hb : s.busy = false) (hr : s.base.toNat + s.len.toNat ≤ 2 ^ AW) (c : Cfg)
    (v : Variant) :
    issueHash c v s =
      if windowHas .sideEffects s then .refused .sideEffectWindow
      else if windowHas .silent s then .refused .silentWindow
      else .next (acceptHash c v s) := by
  have hrange : outOfRange s = false := by simpa [outOfRange] using hr
  simp [issueHash, hb, hrange]

/-- Settles O22: the address is listed among the kinds, and this check of the window comes first. -/
theorem sideEffectWindowLaunchRefused : Obligations.SideEffectWindowLaunchRefused := by
  intro s v a _ hb hr hlo hhi hk
  rw [exec_commandOf, issueHash_in_range hb hr, if_pos (windowHas_true_of_kind (by decide) hlo hhi hk)]

/-- Settles O57: the check for side effects finds none, and the silent address is listed among the kinds. -/
theorem silentWindowLaunchRefused : Obligations.SilentWindowLaunchRefused := by
  intro s v a hi hb hr hlo hhi hk hside
  have hnone : windowHas .sideEffects s = false := windowHas_false_of_kind hi.kinds hside
  rw [exec_commandOf, issueHash_in_range hb hr, if_neg (by simp [hnone]),
    if_pos (windowHas_true_of_kind (by decide) hlo hhi hk)]

/-! ### HASH128 and HASH32 -/

/-- R172: the two variants share their chunks, their loop count and every step before the cross-mix. -/
theorem lanesAfterLoop_hash128 (c : Cfg) (msg : List Byte) (n : Nat) :
    lanesAfterLoop c .hash128 msg n = lanesAfterLoop c .hash32 msg n := by
  induction n with
  | zero => rfl
  | succ n ih => rw [lanesAfterLoop, ih]; rfl

theorem lanesAfterTail_hash128 (c : Cfg) (msg : List Byte) :
    lanesAfterTail c .hash128 msg = lanesAfterTail c .hash32 msg := by
  rw [lanesAfterTail, lanesAfterLoop_hash128]
  rfl

/-- Settles O17: spread mode puts the mixed carry lane in OUT0. -/
theorem hash128SharesAbsorptionWithHash32 : Obligations.Hash128SharesAbsorptionWithHash32 := by
  refine fun c msg => ⟨lanesAfterTail_hash128 c msg, ?_⟩
  rw [hashOuts, lanesAfterTail_hash128]
  rfl

end Sys2Proof.Machine
end

section
/-! Steps of the machine (45_commands.md R159, R160, R167; 70_reset_and_hazards.md R200): what runs on which turn, the
transitions of PH, and what every turn leaves unchanged. -/

namespace Sys2Proof.Machine

open Sys2Proof

/-! ### What runs -/

theorem step_regWrite {s : State} {n : Nat} {v : Word64} {rest : List Turn}
    (h : s.agenda = .host (.regWrite n v) :: rest) : step s = regWrite n v (setAgenda rest s) := step_of_host h

/-- R160, R183: the command write of a word that decodes is the command's own meaning, which checks BUSY itself. -/
theorem commandWrite_of_decode {v : Word64} {i : Instr} (h : decode v = .ok i) (s : State) :
    commandWrite v s = exec i s := by
  cases hb : s.busy with
  | true => rw [commandWrite_of_busy hb, exec_of_busy hb]
  | false => simp [commandWrite, hb, h]

theorem ofNat_table_word (i : Instr) : BitVec.ofNat 64 ((encode i).toNat % 2 ^ 64) = encode i := by
  cases i <;> rfl

theorem decodeTableWord_encode (i : Instr) : decodeTableWord 64 (encode i).toNat = some i := by
  cases i <;> decide

/-- Settles O39: a table word is the data of a write of CMD, which decodes to its instruction. -/
theorem stepRunsTheDecodedCommand : Obligations.StepRunsTheDecodedCommand := by
  refine ⟨fun s n v rest h => step_regWrite h, fun s v i rest h hd => ?_, fun s i => ⟨?_, decodeTableWord_encode i⟩⟩
  · exact (step_regWrite h).trans (commandWrite_of_decode hd _)
  · rw [State.withFetchWord, ofNat_table_word]
    exact (step_regWrite (n := 0) (v := encode i) (rest := s.agenda) rfl).trans
      (commandWrite_of_decode (decode_encode i) s)

/-! ### Reset -/

/-- R28, R200: STATUS reads 0 after the reset event. -/
theorem statusWord_resetEvent (s : State) : statusWord (resetEvent s) = 0 := by
  simp [statusWord, State.busy, State.isDone]

/-- Settles O40: the reset event reads nothing of the engine's state. -/
theorem resetEventInAnyPhase : Obligations.ResetEventInAnyPhase := by
  intro s rest h
  exact ⟨_, step_of_reset h, rfl, rfl, rfl, rfl, rfl, rfl, rfl, rfl, rfl, statusWord_resetEvent _,
    fun _ => rfl, rfl⟩

/-- Settles O41, field by field and register by register. -/
theorem resetStateValues : Obligations.ResetStateValues := by
  refine ⟨rfl, rfl, rfl, rfl, rfl, rfl, rfl, rfl, rfl, fun n hn => ?_⟩
  interval_cases n <;> rfl

/-! ### What a turn of the host can do -/

theorem commandWrite_host {v : Word64} {s t : State} (h : commandWrite v s = .next t) :
    t.mem = s.mem ∧ t.kinds = s.kinds ∧ t.agenda = s.agenda := by
  obtain ⟨-, rfl⟩ | ⟨-, ⟨-, rfl⟩ | ⟨i, -, hexec⟩⟩ := commandWrite_next h
  · simp
  · simp
  · obtain ⟨-, rfl⟩ | ⟨-, rfl⟩ | ⟨-, w, -, -, -, rfl⟩ | ⟨-, -, rfl⟩ := exec_next hexec <;> simp

/-- R27, R160: only an accepted command moves the engine. -/
theorem hostStep_frame_or_accepts {a : HostAct} {s t : State} (h : hostStep a s = .next t) :
    HostFrame s t ∨ ∃ w, a = .regWrite 0 w ∧ s.busy = false ∧ t.busy = true ∧ t.lcmd = w ∧ ∃ i, decode w = .ok i ∧
      ((∃ v, i = commandOf v ∧ t = acceptHash Config.cfg v s) ∨ ((i = .mix32 ∨ i = .mix64) ∧ t = acceptMix i s)) := by
  obtain ⟨w, rfl, h⟩ | ⟨n, v, -, -, rfl⟩ | ⟨x, b, -, rfl⟩ | ⟨x, k, -, rfl⟩ | ⟨-, w, d, ag, rfl, -⟩ := hostStep_next h
  · exact (commandWrite_frame_or_accepts h).imp_right fun hacc => ⟨w, rfl, hacc⟩
  · exact .inl (plainWrite_frame n v s)
  all_goals left; constructor <;> rfl

/-- R56, R59: only a host write changes memory, and only a change of kind the kinds. -/
theorem hostStep_space {a : HostAct} {s t : State} (h : hostStep a s = .next t) :
    ((∀ x b, a ≠ .memWrite x b) → t.mem = s.mem) ∧ ((∀ x k, a ≠ .setKind x k) → t.kinds = s.kinds) := by
  obtain ⟨w, -, h⟩ | ⟨n, v, -, -, rfl⟩ | ⟨x, b, rfl, rfl⟩ | ⟨x, k, rfl, rfl⟩ | ⟨-, w, d, ag, rfl, -⟩ := hostStep_next h
  · obtain ⟨hm, hk, -⟩ := commandWrite_host h
    exact ⟨fun _ => hm, fun _ => hk⟩
  · obtain ⟨hm, hk, -⟩ := plainWrite_host n v s
    exact ⟨fun _ => hm, fun _ => hk⟩
  · exact ⟨fun hno => absurd rfl (hno x b), fun _ => rfl⟩
  · exact ⟨fun _ => rfl, fun hno => absurd rfl (hno x k)⟩
  · exact ⟨fun _ => rfl, fun _ => rfl⟩

/-- R75: only a poll puts turns on the agenda. -/
theorem hostStep_agenda {a : HostAct} {s t : State} (h : hostStep a s = .next t) :
    t.agenda = s.agenda ∨ t.agenda = .engine :: .host .wait :: s.agenda := by
  obtain ⟨w, -, h⟩ | ⟨n, v, -, -, rfl⟩ | ⟨x, b, -, rfl⟩ | ⟨x, k, -, rfl⟩ | ⟨-, w, d, ag, rfl, hag⟩ := hostStep_next h
  · exact .inl (commandWrite_host h).2.2
  · exact .inl (plainWrite_host n v s).2.2
  · exact .inl rfl
  · exact .inl rfl
  · exact hag

/-! ### The transitions of PH -/

/-- R162 to R167: the transitions an engine step makes. -/
theorem engineStep_phase {c : Cfg} {s t : State} (h : engineStep c s = .next t) :
    t.ph = s.ph ∨ (s.ph = .term ∧ t.ph = .loop) ∨
    (s.ph = .loop ∧ t.ph = .tail ∧
      ∃ v, variantOf s.opl = some v ∧ s.i.toNat + chunkSize v = nFull v s.lenl.toNat * chunkSize v) ∨
    (s.ph = .tail ∧ t.ph = .final) ∨ (s.ph = .final ∧ t.ph = .done) ∨ (s.ph = .mixp ∧ t.ph = .done) := by
  obtain rfl | ⟨v, hp, -, -, rfl⟩ | ⟨v, hp, hv, -, rfl⟩ | ⟨v, hp, -, -, rfl⟩ | ⟨v, hp, -, rfl⟩ | ⟨hp, -, rfl⟩ |
    ⟨hp, -, rfl⟩ := engineStep_next h
  · exact .inl rfl
  · exact .inr (.inl ⟨hp, rfl⟩)
  · by_cases hlast : s.i.toNat + chunkSize v = nFull v s.lenl.toNat * chunkSize v
    · exact .inr (.inr (.inl ⟨hp, by simp [hlast], v, hv, hlast⟩))
    · exact .inl (by simp [hlast, hp])
  · exact .inr (.inr (.inr (.inl ⟨hp, rfl⟩)))
  · exact .inr (.inr (.inr (.inr (.inl ⟨hp, rfl⟩))))
  all_goals exact .inr (.inr (.inr (.inr (.inr ⟨hp, rfl⟩))))

theorem idle_or_done_of_not_busy {s : State} (h : s.busy = false) : s.ph = .idle ∨ s.ph = .done := by
  cases hp : s.ph <;> simp_all [State.busy]

/-- Settles O42: the engine's transitions, and of the host's actions only an accepted command. -/
theorem phaseTransitionTable : Obligations.PhaseTransitionTable := by
  intro s t _ h
  obtain ⟨rest, -, h⟩ | ⟨a, rest, ha, h⟩ | ⟨rest, ha, rfl⟩ := step_next h
  · obtain h | h | h | h | h | h := engineStep_phase h
    · exact .inr (.inl h)
    · exact .inr (.inr (.inl h))
    · exact .inr (.inr (.inr (.inl h)))
    · exact .inr (.inr (.inr (.inr (.inl h))))
    · exact .inr (.inr (.inr (.inr (.inr (.inl h)))))
    · exact .inr (.inr (.inr (.inr (.inr (.inr (.inl h))))))
  · obtain hf | ⟨w, rfl, hb, -, hw, i, hdec, hacc⟩ := hostStep_frame_or_accepts h
    · exact .inr (.inl hf.ph)
    · refine .inr (.inr (.inr (.inr (.inr (.inr (.inr
        ⟨idle_or_done_of_not_busy hb, w, i, rest, ha, hdec, hw, ?_⟩))))))
      obtain ⟨v, hi, rfl⟩ | ⟨hi, rfl⟩ := hacc
      · exact .inl ⟨v, hi, rfl⟩
      · exact .inr ⟨hi, rfl⟩
  · exact .inl ⟨rest, ha, rfl⟩

/-! ### Memory -/

/-- Settles O43: the engine writes no byte, and of the host's turns only a write of memory does. -/
theorem onlyHostWritesChangeMemory : Obligations.OnlyHostWritesChangeMemory := by
  intro s t hi h
  refine ⟨fun a b rest ha => ?_, fun hno hreset x => ?_⟩
  · rw [step_of_host ha] at h
    cases h
    exact ⟨memByte_memSet_same (s := setAgenda rest s) hi.memory,
      fun x hx => memByte_memSet_other (s := setAgenda rest s) hx⟩
  · obtain ⟨rest, -, h⟩ | ⟨a, rest, ha, h⟩ | ⟨rest, ha, -⟩ := step_next h
    · exact congrArg (memByte · x) (engineStep_frame h).mem
    · have hmem := (hostStep_space h).1 fun y b hab => hno y b rest (hab ▸ ha)
      exact congrArg (memByte · x) hmem
    · exact absurd ha (hreset rest)

/-! ### The result -/

theorem not_busy_of_done {s : State} (h : s.isDone = true) : s.busy = false := by
  simp [State.busy, isDone_iff.1 h]

/-- R167: in DONE the engine has no step. -/
theorem engineStep_of_done {c : Cfg} {s : State} (h : s.isDone = true) : engineStep c s = .next s := by
  simp [engineStep, isDone_iff.1 h]

/-- Settles O44: an accepted command and a reset leave DONE, and no other turn writes OUT0..OUT3 or LCMD. -/
theorem resultIsStableWhileDone : Obligations.ResultIsStableWhileDone := by
  intro s t h hs ht
  obtain ⟨rest, -, h⟩ | ⟨a, rest, -, h⟩ | ⟨rest, -, rfl⟩ := step_next h
  · rw [engineStep_of_done (s := setAgenda rest s) hs] at h
    cases h
    exact ⟨rfl, rfl⟩
  · obtain hf | ⟨w, -, -, hb, -⟩ := hostStep_frame_or_accepts h
    · exact ⟨hf.out, hf.lcmd⟩
    · exact absurd (hb.symm.trans (not_busy_of_done ht)) (by decide)
  · cases ht

end Sys2Proof.Machine
end

section
/-! The result of a hash command (45_commands.md R162 to R168): the lanes and the outputs, phase by phase, are those of the
function of the message, whatever the host does as long as it keeps the window. -/

namespace Sys2Proof.Machine

open Sys2Proof

/-! ### The value in each phase -/

/-- R161 to R165: where the hash of `msg` stands in each phase. -/
inductive HashStage (c : Cfg) (v : Variant) (msg : List Byte) (s : State) : Prop where
  | term (hp : s.ph = .term) (hi : s.i = 0) (hl : s.lanes = seeds c v)
  | loop (k : Nat) (hp : s.ph = .loop) (hi : s.i.toNat = k * chunkSize v) (hl : s.lanes = lanesAfterLoop c v msg k)
  | tail (hp : s.ph = .tail) (hl : s.lanes = lanesAfterLoop c v msg (nFull v msg.length))
  | final (hp : s.ph = .final) (hl : s.lanes = lanesAfterTail c v msg)
  | done (hp : s.ph = .done) (ho : s.out = hashOuts c v msg)

/-- The latches are those of a hash of `msg` by variant `v`, and the hash stands where its phase says. -/
structure Computes (c : Cfg) (v : Variant) (msg : List Byte) (s : State) : Prop where
  variant : variantOf s.opl = some v
  message : latchedMessage s = msg
  stage : HashStage c v msg s

theorem length_latchedMessage (s : State) : (latchedMessage s).length = s.lenl.toNat := by simp [latchedMessage]

/-- The message and its place are all that the stage asks of memory. -/
theorem Computes.congr {c : Cfg} {v : Variant} {msg : List Byte} {s t : State} (h : Computes c v msg s)
    (hf : HostFrame s t) (hm : latchedMessage t = latchedMessage s) : Computes c v msg t where
  variant := by rw [hf.opl, h.variant]
  message := by rw [hm, h.message]
  stage := by
    cases h.stage with
    | term hp hi hl => exact .term (hf.ph.trans hp) (hf.i.trans hi) (hf.lanes.trans hl)
    | loop k hp hi hl => exact .loop k (hf.ph.trans hp) (by rw [hf.i, hi]) (hf.lanes.trans hl)
    | tail hp hl => exact .tail (hf.ph.trans hp) (hf.lanes.trans hl)
    | final hp hl => exact .final (hf.ph.trans hp) (hf.lanes.trans hl)
    | done hp ho => exact .done (hf.ph.trans hp) (hf.out.trans ho)

theorem Computes.ne_idle {c : Cfg} {v : Variant} {msg : List Byte} {s : State} (h : Computes c v msg s) :
    s.ph ≠ .idle := by
  obtain ⟨-, -, hs⟩ := h
  cases hs <;> simp_all

theorem Computes.out {c : Cfg} {v : Variant} {msg : List Byte} {s : State} (h : Computes c v msg s)
    (hd : s.isDone = true) : s.out = hashOuts c v msg := by
  have hp := isDone_iff.1 hd
  obtain ⟨-, -, hs⟩ := h
  cases hs <;> simp_all

/-! ### The bytes a step reads are a piece of the message -/

theorem drop_latchedMessage {s : State} {k : Nat} (h : k ≤ s.lenl.toNat) :
    (latchedMessage s).drop k = (addrsFrom (s.basel.toNat + k) (s.lenl.toNat - k)).map (memByte s.mem) := by
  rw [latchedMessage, ← List.map_drop, drop_addrsFrom h]

/-- R134: TERM reads the last C bytes of the message. -/
theorem termBytes_eq {v : Variant} {s : State} (h : chunkSize v ≤ s.lenl.toNat) :
    (termAddrs v s).map (memByte s.mem) = (latchedMessage s).drop ((latchedMessage s).length - chunkSize v) := by
  rw [length_latchedMessage, drop_latchedMessage (Nat.sub_le ..), Nat.sub_sub_self h, termAddrs]

/-- R119: LOOP reads the chunk its offset names. -/
theorem loopBytes_eq {v : Variant} {s : State} {k : Nat} (hi : s.i.toNat = k * chunkSize v)
    (h : s.i.toNat + chunkSize v ≤ s.lenl.toNat) :
    (loopAddrs v s).map (memByte s.mem) = msgChunk v (latchedMessage s) k := by
  rw [msgChunk, ← hi, drop_latchedMessage (by omega), ← List.map_take, take_addrsFrom (by omega), loopAddrs]

/-- R131: TAIL reads the message from its offset on. -/
theorem tailBytes_eq {s : State} (h : s.i.toNat ≤ s.lenl.toNat) :
    (tailAddrs s).map (memByte s.mem) = (latchedMessage s).drop s.i.toNat := by
  rw [drop_latchedMessage h, tailAddrs]

theorem ofNat_of_toNat_eq {a : Addr} {n : Nat} (h : a.toNat = n) : BitVec.ofNat AW n = a := by
  rw [← h, BitVec.ofNat_toNat, BitVec.setWidth_eq]

/-! ### The engine's steps keep it -/

theorem Computes.afterTerm {c : Cfg} {v : Variant} {s : State} (hv : variantOf s.opl = some v)
    (hlen : chunkSize v < s.lenl.toNat) (hi : s.i = 0) (hl : s.lanes = seeds c v) :
    Computes c v (latchedMessage s) (Machine.afterTerm c v s ((termAddrs v s).map (memByte s.mem))) where
  variant := hv
  message := rfl
  stage := by
    refine .loop 0 rfl (by simp [hi]) ?_
    have hmsg : chunkSize v < (latchedMessage s).length := by rwa [length_latchedMessage]
    rw [afterTerm_lanes, termBytes_eq hlen.le, hl, lanesAfterLoop, lanesBeforeLoop, if_pos hmsg,
      length_latchedMessage, ofNat_sub_chunk hlen.le]

theorem Computes.afterLoop {c : Cfg} {v : Variant} {s : State} {k : Nat} (hv : variantOf s.opl = some v)
    (hoff : s.i.toNat + chunkSize v ≤ nFull v s.lenl.toNat * chunkSize v) (hi : s.i.toNat = k * chunkSize v)
    (hl : s.lanes = lanesAfterLoop c v (latchedMessage s) k) :
    Computes c v (latchedMessage s) (Machine.afterLoop c v s ((loopAddrs v s).map (memByte s.mem))) where
  variant := hv
  message := rfl
  stage := by
    have hfit := hoff.trans (nFull_mul_le v s.lenl.toNat)
    have hnext : s.i.toNat + chunkSize v = (k + 1) * chunkSize v := by rw [hi, Nat.succ_mul]
    have hlanes : (Machine.afterLoop c v s ((loopAddrs v s).map (memByte s.mem))).lanes =
        lanesAfterLoop c v (latchedMessage s) (k + 1) := by
      rw [afterLoop_lanes, loopBytes_eq hi hfit, hl, lanesAfterLoop, ofNat_of_toNat_eq hi]
    by_cases hlast : s.i.toNat + chunkSize v = nFull v s.lenl.toNat * chunkSize v
    · have hk : nFull v (latchedMessage s).length = k + 1 := by
        rw [length_latchedMessage]
        exact Nat.eq_of_mul_eq_mul_right (chunkSize_pos v) (hlast.symm.trans hnext)
      exact .tail (by simp [hlast]) (by rw [hlanes, hk])
    · exact .loop (k + 1) (by simp [hlast]) (by rw [afterLoop_i, toNat_loop_offset hoff, hnext]) hlanes

theorem Computes.afterTail {c : Cfg} {v : Variant} {s : State} (hv : variantOf s.opl = some v)
    (hi : s.i.toNat = nFull v s.lenl.toNat * chunkSize v)
    (hl : s.lanes = lanesAfterLoop c v (latchedMessage s) (nFull v (latchedMessage s).length)) :
    Computes c v (latchedMessage s) (Machine.afterTail c v s ((tailAddrs s).map (memByte s.mem))) where
  variant := hv
  message := rfl
  stage := by
    have hrest : (tailAddrs s).map (memByte s.mem) = (latchedMessage s).drop s.i.toNat :=
      tailBytes_eq (hi ▸ nFull_mul_le v _)
    have hfit : ((tailAddrs s).map (memByte s.mem)).length ≤ chunkSize v := by
      simpa [tailAddrs, hi] using sub_nFull_le v s.lenl.toNat
    refine .final rfl ?_
    rw [afterTail_lanes, scratchChunk_fillScratch (chunkSize_le v) hfit, hrest, hl, lanesAfterTail, paddedTail,
      length_latchedMessage, ← hi, ofNat_of_toNat_eq rfl, ofNat_of_toNat_eq rfl]

/-- R162 to R165: each step of the engine takes the hash to its next stage. -/
theorem Computes.engineStep {c : Cfg} {v : Variant} {msg : List Byte} {s t : State} (h : Computes c v msg s)
    (hs : Machine.engineStep c s = .next t) : Computes c v msg t := by
  obtain ⟨hv, rfl, stage⟩ := h
  have hvar {w : Variant} (hw : variantOf s.opl = some w) : w = v := Option.some_inj.1 (hw.symm.trans hv)
  obtain rfl | ⟨w, hp, hw, hlen, rfl⟩ | ⟨w, hp, hw, hoff, rfl⟩ | ⟨w, hp, hw, hi, rfl⟩ | ⟨w, hp, hw, rfl⟩ |
    ⟨hp, -, rfl⟩ | ⟨hp, -, rfl⟩ := engineStep_next hs
  · exact ⟨hv, rfl, stage⟩
  · obtain rfl := hvar hw
    cases stage with
    | term _ hi hl => exact .afterTerm hv hlen hi hl
    | _ => simp_all
  · obtain rfl := hvar hw
    cases stage with
    | loop k _ hi hl => exact .afterLoop hv hoff hi hl
    | _ => simp_all
  · obtain rfl := hvar hw
    cases stage with
    | tail _ hl => exact .afterTail hv hi hl
    | _ => simp_all
  · obtain rfl := hvar hw
    cases stage with
    | final _ hl => exact ⟨hv, rfl, .done rfl (by rw [finish_out, hl, hashOuts])⟩
    | _ => simp_all
  all_goals cases stage <;> simp_all

/-- R161: acceptance starts the hash of the message the host's registers name. -/
theorem computes_acceptHash (c : Cfg) (v : Variant) (s : State) :
    Computes c v (namedMessage s) (acceptHash c v s) where
  variant := opField_encode_commandOf v
  message := rfl
  stage := by
    obtain ⟨hp, -⟩ | ⟨hp, hlen⟩ := acceptHash_phase c v s
    · exact .term hp rfl rfl
    · have hmsg : ¬ chunkSize v < (namedMessage s).length := by simpa [namedMessage] using hlen
      refine .tail hp ?_
      rw [nFull_eq_zero (Nat.le_of_not_lt hmsg), lanesAfterLoop, lanesBeforeLoop, if_neg hmsg, acceptHash_lanes]

/-! ### The host's turns keep it -/

/-- R58, R202: every turn still to come leaves the latched window as it is. -/
def WindowKept (s : State) : Prop :=
  ∀ a ∈ s.agenda, keepsWindow s.basel.toNat (s.basel.toNat + s.lenl.toNat) a = true

theorem latchedMessage_congr {s t : State} (hb : t.basel = s.basel) (hl : t.lenl = s.lenl)
    (hm : ∀ a, inLatchedWindow s a → memByte t.mem a = memByte s.mem a) : latchedMessage t = latchedMessage s := by
  rw [latchedMessage, latchedMessage, hb, hl]
  exact List.map_congr_left fun a ha => hm a (mem_addrsFrom.1 ha)

/-- R58: a host action that keeps the window leaves its bytes as they are. -/
theorem hostStep_window {a : HostAct} {s t : State} {lo hi : Nat} (h : hostStep a s = .next t)
    (hk : keepsWindow lo hi (.host a) = true) {x : Nat} (hlo : lo ≤ x) (hhi : x < hi) :
    memByte t.mem x = memByte s.mem x := by
  by_cases hw : ∃ y b, a = .memWrite y b
  · obtain ⟨y, b, rfl⟩ := hw
    cases h
    have hout : y.toNat < lo ∨ hi ≤ y.toNat := by simpa [keepsWindow] using hk
    exact memByte_memSet_other (by omega)
  · exact congrArg (memByte · x) ((hostStep_space h).1 fun y b hab => hw ⟨y, b, hab⟩)

/-- The turns put on the agenda by a poll keep every window. -/
theorem WindowKept.of_agenda {s t : State} (h : WindowKept s) (hb : t.basel = s.basel) (hl : t.lenl = s.lenl)
    (ha : t.agenda = s.agenda ∨ t.agenda = .engine :: .host .wait :: s.agenda) : WindowKept t := by
  unfold WindowKept
  rw [hb, hl]
  obtain ha | ha := ha <;> rw [ha]
  · exact h
  · exact List.forall_mem_cons.2 ⟨rfl, List.forall_mem_cons.2 ⟨rfl, h⟩⟩

theorem WindowKept.tail {s : State} {a : Turn} {rest : List Turn} (h : WindowKept s) (ha : s.agenda = a :: rest) :
    WindowKept (setAgenda rest s) := fun b hb => h b (ha ▸ List.mem_cons_of_mem a hb)

/-- R168: while the command runs every turn takes the hash to its next stage or leaves it where it is, and keeps the
window for the turns after it. -/
theorem Computes.step {v : Variant} {msg : List Byte} {s t : State} (h : Computes Config.cfg v msg s)
    (hk : WindowKept s) (hd : s.isDone = false) (hs : Machine.step s = .next t) :
    Computes Config.cfg v msg t ∧ WindowKept t := by
  have hset (rest : List Turn) : Computes Config.cfg v msg (setAgenda rest s) :=
    h.congr (setAgenda_frame rest s) rfl
  obtain ⟨rest, ha, hs⟩ | ⟨a, rest, ha, hs⟩ | ⟨rest, ha, -⟩ := step_next hs
  · have hrest : WindowKept (setAgenda rest s) := by
      obtain ⟨-, rfl⟩ | ha := ha
      · intro a ha; cases ha
      · exact hk.tail ha
    have hf := engineStep_frame hs
    exact ⟨(hset rest).engineStep hs, hrest.of_agenda hf.basel hf.lenl (.inl hf.agenda)⟩
  · have hbusy : s.busy = true := (busy_or_done h.ne_idle).resolve_right fun hp => by simp [isDone_iff.2 hp] at hd
    obtain hf | ⟨w, -, hb, -⟩ := hostStep_frame_or_accepts hs
    · have hkeep := hk (.host a) (by simp [ha])
      have hmsg : latchedMessage t = latchedMessage (setAgenda rest s) :=
        latchedMessage_congr hf.basel hf.lenl fun x hx => hostStep_window hs hkeep hx.1 hx.2
      exact ⟨(hset rest).congr hf hmsg, (hk.tail ha).of_agenda hf.basel hf.lenl (hostStep_agenda hs)⟩
    · exact absurd (hb.symm.trans hbusy) (by decide)
  · have := hk .reset (by simp [ha])
    cases this

/-- A run that ends in a state takes its first step to one. -/
theorem run_succ_next {n : Nat} {s u : State} (h : Host.Core.run Sys2Proof.core (n + 1) s = .next u) :
    ∃ t, step s = .next t ∧ Host.Core.run Sys2Proof.core n t = .next u := by
  simp only [Host.Core.run] at h
  split at h
  · next t hs => exact ⟨t, hs, h⟩
  · cases h
  · cases h

/-- R168: the outputs of a run of the command, the first time it is done. -/
theorem Computes.run {v : Variant} {msg : List Byte} {n : Nat} {t u : State} (h : Computes Config.cfg v msg t)
    (hk : WindowKept t) (hrun : Host.Core.run Sys2Proof.core n t = .next u) (hu : u.isDone = true)
    (hfirst : ∀ m w, m < n → Host.Core.run Sys2Proof.core m t = .next w → w.isDone = false) :
    u.out = hashOuts Config.cfg v msg := by
  induction n generalizing t with
  | zero => cases hrun; exact h.out hu
  | succ n ih =>
    have hd : t.isDone = false := hfirst 0 t (Nat.succ_pos n) rfl
    obtain ⟨w, hs, hrest⟩ := run_succ_next hrun
    obtain ⟨hw, hkw⟩ := h.step hk hd hs
    exact ih hw hkw hrest fun m x hm hx => hfirst (m + 1) x (by omega) ((run_of_step hs).trans hx)

/-- Settles O52: a busy engine was accepted, which starts the hash of the message the host's registers name. -/
theorem interleavingDoesNotChangeTheResult : Obligations.InterleavingDoesNotChangeTheResult := by
  intro s t u v n _ hb _ hkeep hexec ht hrun hu hfirst
  obtain ⟨w, hw, -, -, rfl⟩ | ⟨hm, -⟩ := exec_accepted hb hexec ht
  · obtain rfl := commandOf_inj hw
    exact (computes_acceptHash Config.cfg v s).run hkeep hrun hu hfirst
  · cases v <;> simp [commandOf] at hm

theorem namedMessage_eq (s : State) :
    namedMessage s = (List.range s.len.toNat).map fun k => memByte s.mem (s.base.toNat + k) := by
  simp [namedMessage, addrsFrom]

/-- Settles O53: both results are the hash of the one message. -/
theorem equalMessagesGiveEqualResults : Obligations.EqualMessagesGiveEqualResults := by
  intro s s' t t' u u' v n n' hi hi' hb hb' hans hans' hkeep hkeep' hlen hbytes hexec ht hexec' ht' hrun hu hfirst
    hrun' hu' hfirst'
  have hmsg : namedMessage s = namedMessage s' := by
    rw [namedMessage_eq, namedMessage_eq, ← hlen]
    exact List.map_congr_left fun k hk => hbytes k (List.mem_range.1 hk)
  calc u.out = hashOuts Config.cfg v (namedMessage s) :=
        interleavingDoesNotChangeTheResult s t u v n hi hb hans hkeep hexec ht hrun hu hfirst
    _ = hashOuts Config.cfg v (namedMessage s') := by rw [hmsg]
    _ = u'.out :=
        (interleavingDoesNotChangeTheResult s' t' u' v n' hi' hb' hans' hkeep' hexec' ht' hrun' hu' hfirst').symm

end Sys2Proof.Machine
end

section
/-! Commands run to their end (45_commands.md R160 to R170, 70_reset_and_hazards.md R207), and the calls of
30_encoding.md R75 and R76. -/

namespace Sys2Proof.Machine

open Sys2Proof

/-! ### A command that finishes -/

/-- `n` engine steps from `s`, all of a running command, end in DONE with the outputs `o`. -/
def Finishes (c : Cfg) (o : Outs) : Nat → State → Prop
  | 0, s => s.ph = .done ∧ s.out = o
  | n + 1, s => s.busy = true ∧ ∃ t, engineStep c s = .next t ∧ Finishes c o n t

/-- R167, R207: the hash in its stage, on a window that answers, finishes in the steps that remain. -/
theorem Computes.finishes {c : Cfg} {v : Variant} {msg : List Byte} {s : State} (h : Computes c v msg s) (hi : s.Inv)
    (hans : answersOn s s.basel.toNat (s.basel.toNat + s.lenl.toNat)) :
    Finishes c (hashOuts c v msg) (remainingSteps s) s := by
  generalize hn : remainingSteps s = n
  induction n generalizing s with
  | zero =>
    have hdone : s.ph = .done :=
      (busy_or_done h.ne_idle).resolve_left fun hb => (remainingSteps_pos hi hb).ne' hn
    exact ⟨hdone, h.out (isDone_iff.2 hdone)⟩
  | succ n ih =>
    have hb : s.busy = true :=
      (busy_or_done h.ne_idle).resolve_right fun hd => by simp [remainingSteps_done hd] at hn
    obtain ⟨t, ht, hrest⟩ := engineStep_progress (c := c) hi hb hans
    have hf := engineStep_frame ht
    have hans' : answersOn t t.basel.toNat (t.basel.toNat + t.lenl.toNat) := by
      simpa only [answersOn, kindAt, hf.basel, hf.lenl, hf.kinds] using hans
    exact ⟨hb, t, ht, ih (h.engineStep ht) (hi.engineStep ht) hans' (by omega)⟩

/-- R167: the steps that remain at acceptance. -/
theorem remainingSteps_acceptHash (c : Cfg) (v : Variant) (s : State) :
    remainingSteps (acceptHash c v s) = hashSteps v s.len.toNat := by
  have hv : variantOf (acceptHash c v s).opl = some v := opField_encode_commandOf v
  obtain ⟨hp, hlen⟩ | ⟨hp, hlen⟩ := acceptHash_phase c v s
  · rw [remainingSteps_term hp hv, hashSteps, if_pos hlen, acceptHash_lenl]
    omega
  · rw [remainingSteps_tail hp hv, hashSteps, if_neg (by omega), nFull_eq_zero hlen]

theorem finishes_acceptHash {s : State} (c : Cfg) (v : Variant) (hi : s.Inv)
    (hr : s.base.toNat + s.len.toNat ≤ 2 ^ AW) (hans : answersOn s s.base.toNat (s.base.toNat + s.len.toNat)) :
    Finishes c (hashOuts c v (namedMessage s)) (hashSteps v s.len.toNat) (acceptHash c v s) := by
  rw [← remainingSteps_acceptHash c v s]
  exact (computes_acceptHash c v s).finishes (hi.acceptHash c v hr) hans

/-- R104, R166: MIX32 finishes in the one step MIXP. -/
theorem finishes_acceptMix32 (c : Cfg) (s : State) : Finishes c (mix32Outs c s.mixin) 1 (acceptMix .mix32 s) :=
  ⟨rfl, _, engineStep_mixp_mix32 rfl rfl, rfl, rfl⟩

/-- R105, R166: MIX64 finishes in the one step MIXP. -/
theorem finishes_acceptMix64 (c : Cfg) (s : State) : Finishes c (mix64Outs c s.mixin) 1 (acceptMix .mix64 s) :=
  ⟨rfl, _, engineStep_mixp_mix64 rfl rfl, rfl, rfl⟩

/-- R25, R205: the step does not depend on the agenda and the read data, and keeps them. -/
theorem engineStep_hostData {c : Cfg} {s t : State} (h : engineStep c s = .next t) (ag : List Turn) (w : Word64) :
    engineStep c { s with agenda := ag, rdata := w } = .next { t with agenda := ag, rdata := w } := by
  have hf := engineStep_frame h
  refine (engineStep_underHost c (e := { s with agenda := ag, rdata := w }) (s := s) fun _ _ => rfl).trans ?_
  simp [h, onNext, underHost, ← hf.base, ← hf.len, ← hf.mixin, ← hf.err, ← hf.errcode, ← hf.mem]

theorem Finishes.hostData {c : Cfg} {o : Outs} {n : Nat} {s : State} (h : Finishes c o n s) (ag : List Turn)
    (w : Word64) : Finishes c o n { s with agenda := ag, rdata := w } := by
  induction n generalizing s with
  | zero => exact h
  | succ n ih =>
    obtain ⟨hb, t, ht, hrest⟩ := h
    exact ⟨hb, _, engineStep_hostData ht ag w, ih hrest⟩

/-- With nothing on the agenda the engine runs to DONE. -/
theorem Finishes.run {o : Outs} {n : Nat} {s : State} (h : Finishes Config.cfg o n s) (ha : s.agenda = []) :
    ∃ u, Host.Core.run Sys2Proof.core n s = .next u ∧ u.ph = .done ∧ u.out = o ∧ EngineFrame s u := by
  induction n generalizing s with
  | zero => exact ⟨s, rfl, h.1, h.2, EngineFrame.refl s⟩
  | succ n ih =>
    obtain ⟨-, t, ht, hrest⟩ := h
    have hf := engineStep_frame ht
    obtain ⟨u, hrun, hp, ho, hu⟩ := ih hrest (hf.agenda.trans ha)
    exact ⟨u, (run_of_step ((step_of_empty ha).trans ht)).trans hrun, hp, ho, hf.trans hu⟩

/-- Settles O50: the accepted command finishes in its steps, which leave the host's registers and memory as they are. -/
theorem hashCommandsComplete : Obligations.HashCommandsComplete := by
  intro s v hi hb ha hr hans
  obtain ⟨u, hrun, hp, ho, hf⟩ := (finishes_acceptHash Config.cfg v hi hr hans).run ha
  exact ⟨_, u, exec_accepts_hash hb hr (launch_of_answers hi.kinds hans), hrun, hp, ho, hf.lcmd, hf.base, hf.len,
    hf.mixin, hf.err, hf.errcode, fun a => congrArg (memByte · a) hf.mem, hf.rdata⟩

/-- Settles O51: the one step of a mixer test command is MIXP, which writes only OUT0..OUT3 and PH. -/
theorem mixCommandsComplete : Obligations.MixCommandsComplete := by
  intro s i him hb ha
  have hexec := exec_accepts_mix him hb
  obtain rfl | rfl := him
  · have hstep := (step_of_empty (s := acceptMix .mix32 s) ha).trans (engineStep_mixp_mix32 rfl rfl)
    exact ⟨_, _, hexec, hstep, rfl, fun _ => mix32Outs_eq .., nofun, rfl, rfl, rfl, rfl, rfl, rfl, rfl, rfl, rfl,
      fun _ => rfl⟩
  · have hstep := (step_of_empty (s := acceptMix .mix64 s) ha).trans (engineStep_mixp_mix64 rfl rfl)
    exact ⟨_, _, hexec, hstep, rfl, nofun, fun _ => rfl, rfl, rfl, rfl, rfl, rfl, rfl, rfl, rfl, rfl, fun _ => rfl⟩

/-! ### Runs of some length -/

/-- Some number of steps leads from `s` to `u`. -/
def Reaches (s u : State) : Prop := ∃ n, Host.Core.run Sys2Proof.core n s = .next u

theorem Reaches.refl (s : State) : Reaches s s := ⟨0, rfl⟩

theorem Reaches.trans {s t u : State} (h : Reaches s t) (h' : Reaches t u) : Reaches s u := by
  obtain ⟨n, hn⟩ := h
  obtain ⟨m, hm⟩ := h'
  exact ⟨n + m, (run_append hn).trans hm⟩

theorem Reaches.of_step {s t : State} (h : step s = .next t) : Reaches s t := ⟨1, run_of_step h⟩

/-! ### wait and the reads of a call -/

/-- R75: `wait` ends when the command has finished, with the outputs in place and the turns after it to come. -/
theorem Finishes.wait {o : Outs} {n : Nat} {s : State} {rest : List Turn} (h : Finishes Config.cfg o n s)
    (ha : s.agenda = .host .wait :: rest) :
    ∃ u, Reaches s u ∧ u.agenda = rest ∧ u.isDone = true ∧ u.out = o := by
  induction n generalizing s with
  | zero =>
    obtain ⟨hp, ho⟩ := h
    have hd : s.isDone = true := isDone_iff.2 hp
    exact ⟨_, .of_step (step_wait ha), by simp [hd], hd, ho⟩
  | succ n ih =>
    obtain ⟨hb, t, ht, hrest⟩ := h
    have hd : s.isDone = false := Bool.eq_false_iff.2 fun hd => by simp [not_busy_of_done hd] at hb
    have hpoll := step_wait ha
    simp only [hd, Bool.false_eq_true, if_false] at hpoll
    have hengine := (step_of_engine (s := { s with agenda := .engine :: .host .wait :: rest, rdata := statusWord s })
      rfl).trans (engineStep_hostData ht (.host .wait :: rest) (statusWord s))
    obtain ⟨u, hu, hres⟩ := ih (hrest.hostData (.host .wait :: rest) (statusWord s)) rfl
    exact ⟨u, (Reaches.of_step hpoll).trans ((Reaches.of_step hengine).trans hu), hres⟩

/-- R31: reads change neither DONE nor the outputs. -/
theorem reaches_of_reads {ns : List Nat} {rest : List Turn} {s : State} (hd : s.isDone = true)
    (ha : s.agenda = ns.map (fun n => .host (.regRead n)) ++ rest) :
    ∃ u, Reaches s u ∧ u.agenda = rest ∧ u.isDone = true ∧ u.out = s.out := by
  induction ns generalizing s with
  | nil => exact ⟨s, .refl s, ha, hd, rfl⟩
  | cons n ns ih =>
    obtain ⟨u, hu, hres⟩ := ih (s := { s with
      agenda := ns.map (fun n => .host (.regRead n)) ++ rest
      rdata := (regRead n s).1
      draws := if 8 ≤ n ∧ n ≤ 11 ∧ s.isDone = false then s.draws + 1 else s.draws }) hd rfl
    exact ⟨u, (Reaches.of_step (step_regRead ha)).trans hu, hres⟩

/-- R76: the end of a call, `wait ; rd OUT0 ; ... ; rd OUTw`, leaves word `w` of the outputs in the read data. -/
theorem Finishes.call {o : Outs} {n w : Nat} {s : State} (h : Finishes Config.cfg o n s) (hw : w < 4)
    (ha : s.agenda = .host .wait :: (List.range (w + 1)).map fun k => .host (.regRead (8 + k))) :
    ∃ u, Reaches s u ∧ u.agenda = [] ∧ u.isDone = true ∧ u.rdata = o.word w := by
  obtain ⟨t, hst, hta, htd, hto⟩ := h.wait ha
  have hsplit : t.agenda = ((List.range w).map (8 + ·)).map (fun n => .host (.regRead n)) ++
      [.host (.regRead (8 + w))] := by
    rw [hta, List.range_succ, List.map_append, List.map_map]
    rfl
  obtain ⟨x, htx, hxa, hxd, hxo⟩ := reaches_of_reads htd hsplit
  refine ⟨_, hst.trans (htx.trans (.of_step (step_regRead hxa))), rfl, hxd, ?_⟩
  rw [regRead_out hw, outRead_of_done hxd, hxo, hto]

/-! ### The calls -/

/-- R76: the three writes of `hashN(bytes, length)` set BASE and LEN and issue the command. -/
theorem reaches_acceptHash {s : State} {v : Variant} {bytes length : Addr} {rest : List Turn} (hi : s.Inv)
    (hb : s.busy = false) (hr : bytes.toNat + length.toNat ≤ 2 ^ AW)
    (hans : answersOn s bytes.toNat (bytes.toNat + length.toNat))
    (ha : s.agenda = .host (.regWrite 2 (bytes.setWidth 64)) :: .host (.regWrite 3 (length.setWidth 64)) ::
      .host (.regWrite 0 (encode (commandOf v))) :: rest) :
    Reaches s (acceptHash Config.cfg v { s with base := bytes, len := length, agenda := rest }) := by
  have hkeep (a : Addr) : (a.setWidth 64).setWidth AW = a := by
    rw [BitVec.setWidth_setWidth_of_le _ (by decide), BitVec.setWidth_eq]
  have hbase := step_regWrite ha
  rw [regWrite_base, hkeep] at hbase
  have hlen := step_regWrite (s := { s with
    base := bytes
    agenda := .host (.regWrite 3 (length.setWidth 64)) :: .host (.regWrite 0 (encode (commandOf v))) :: rest }) rfl
  rw [regWrite_len, hkeep] at hlen
  have hcmd := step_regWrite (s := { s with
    base := bytes
    len := length
    agenda := .host (.regWrite 0 (encode (commandOf v))) :: rest }) rfl
  have hacc := exec_accepts_hash (v := v) (s := { s with base := bytes, len := length, agenda := rest }) hb hr
    (launch_of_answers (s := { s with base := bytes, len := length, agenda := rest }) hi.kinds hans)
  exact (Reaches.of_step hbase).trans ((Reaches.of_step hlen).trans
    (.of_step (hcmd.trans ((commandWrite_of_decode (decode_encode _) _).trans hacc))))

/-- Settles O55: the call issues the command on its operands, and the end of the call finds it finished. -/
theorem hashCallReturnsItsWords : Obligations.HashCallReturnsItsWords := by
  intro s v bytes length words hi hb ha h1 h4 hr hans
  obtain ⟨w, rfl⟩ := Nat.exists_eq_add_of_le' h1
  have hissue := reaches_acceptHash hi hb hr hans ha
  have hi' : ({ s with
    base := bytes
    len := length
    agenda := .host .wait :: (List.range (w + 1)).map fun k => .host (.regRead (8 + k)) } : State).Inv := { hi with }
  obtain ⟨u, hu, hua, hud, hur⟩ := (finishes_acceptHash Config.cfg v hi' hr hans).call (w := w) (by omega) rfl
  obtain ⟨n, hn⟩ := hissue.trans hu
  exact ⟨n, u, hn, hua, hud, hur⟩

/-- R76: the call `mixN(v)` of a command that finishes with the outputs `o` returns the word OUT0 of them. -/
theorem mixCall_returns {s : State} {i : Instr} {v : Word64} {o : Outs} (him : i = .mix32 ∨ i = .mix64)
    (hb : s.busy = false) (ha : s.agenda = callMix i v)
    (hfin : ∀ x : State, x.mixin = v → Finishes Config.cfg o 1 (acceptMix i x)) :
    ∃ n u, Host.Core.run Sys2Proof.core n s = .next u ∧ u.agenda = [] ∧ u.rdata = o.out0 := by
  have hmixin := step_regWrite ha
  have hcmd := step_regWrite (s := { s with
    mixin := v
    agenda := .host (.regWrite 0 (encode i)) :: .host .wait :: [.host (.regRead 8)] }) rfl
  have hacc := exec_accepts_mix (s := { s with mixin := v, agenda := .host .wait :: [.host (.regRead 8)] }) him hb
  obtain ⟨u, hu, hua, -, hur⟩ :=
    (hfin { s with mixin := v, agenda := .host .wait :: [.host (.regRead 8)] } rfl).call (w := 0) (by decide) rfl
  obtain ⟨n, hn⟩ := (Reaches.of_step hmixin).trans ((Reaches.of_step
    (hcmd.trans ((commandWrite_of_decode (decode_encode i) _).trans hacc))).trans hu)
  exact ⟨n, u, hn, hua, hur⟩

/-- Settles O56: each of the two commands finishes with its mixer's output registers. -/
theorem mixCallReturnsItsWord : Obligations.MixCallReturnsItsWord := by
  refine fun s v hb => ⟨fun ha => ?_, fun ha => ?_⟩
  · rw [← lo32_eq_setWidth]
    exact mixCall_returns (.inl rfl) hb ha fun x hx => hx ▸ finishes_acceptMix32 Config.cfg x
  · exact mixCall_returns (.inr rfl) hb ha fun x hx => hx ▸ finishes_acceptMix64 Config.cfg x

end Sys2Proof.Machine
end

section
/-! Dead elements (10_state.md R22, R23, R35; 93_implementation_defined.md U9): every action on two states that agree on
their live part gives states that agree on it, or stops for the same reason. -/

namespace Sys2Proof.Machine

open Sys2Proof

/-! ### What agreeing states share -/

theorem AgreeLive.busy {s u : State} (h : AgreeLive s u) : s.busy = u.busy := by simp only [State.busy, h.ph]

theorem AgreeLive.isDone {s u : State} (h : AgreeLive s u) : s.isDone = u.isDone := by
  simp only [State.isDone, h.ph]

theorem AgreeLive.kindAt {s u : State} (h : AgreeLive s u) (a : Nat) : Machine.kindAt s a = Machine.kindAt u a := by
  simp only [Machine.kindAt, h.kinds]

theorem AgreeLive.statusWord {s u : State} (h : AgreeLive s u) : Machine.statusWord s = Machine.statusWord u := by
  simp only [Machine.statusWord, h.err, h.errcode, h.busy, h.isDone]

theorem AgreeLive.regRead_fst {s u : State} (h : AgreeLive s u) (n : Nat) : (regRead n s).1 = (regRead n u).1 :=
  regRead_fst_congr h.ph h.lcmd h.base h.len h.mixin h.err h.errcode (fun hd => h.out (isDone_iff.1 hd)) h.draws n

/-! ### Host turns -/

theorem AgreeLive.hostData {s u : State} (h : AgreeLive s u) (w : Word64) (d : Nat) (ag : List Turn) :
    AgreeLive { s with rdata := w, draws := d, agenda := ag } { u with rdata := w, draws := d, agenda := ag } :=
  { h with rdata := rfl, draws := rfl, agenda := rfl }

theorem AgreeLive.setAgenda {s u : State} (h : AgreeLive s u) (rest : List Turn) :
    AgreeLive (Machine.setAgenda rest s) (Machine.setAgenda rest u) := { h with agenda := rfl }

theorem AgreeLive.refuse {s u : State} (h : AgreeLive s u) (r : RefusalCode) :
    AgreeLive (Machine.refuse r s) (Machine.refuse r u) := by
  rw [refuse_eq, refuse_eq, h.err, h.errcode]
  exact { h with err := rfl, errcode := rfl }

theorem AgreeLive.memSet {s u : State} (h : AgreeLive s u) (a : Addr) (b : Byte) :
    AgreeLive (Machine.memSet a b s) (Machine.memSet a b u) := { h with mem := by simp [h.mem] }

theorem AgreeLive.kindSet {s u : State} (h : AgreeLive s u) (a : Addr) (k : AddrKind) :
    AgreeLive (Machine.kindSet a k s) (Machine.kindSet a k u) := { h with kinds := by simp [h.kinds] }

theorem AgreeLive.plainWrite {s u : State} (h : AgreeLive s u) (n : Nat) (v : Word64) :
    AgreeLive (Machine.plainWrite n v s) (Machine.plainWrite n v u) := by
  unfold Machine.plainWrite
  split
  · unfold statusWrite
    split
    · exact { h with err := rfl, errcode := rfl }
    · exact h
  · exact { h with base := rfl }
  · exact { h with len := rfl }
  · exact { h with mixin := rfl }
  · exact h

/-- R35, R200: the reset event gives every element of the engine its one value. -/
theorem AgreeLive.resetEvent {s u : State} (h : AgreeLive s u) :
    AgreeLive (Machine.resetEvent s) (Machine.resetEvent u) := by
  constructor
  case mem => exact h.mem
  case kinds => exact h.kinds
  case agenda => exact h.agenda
  case rdata => exact h.rdata
  case draws => exact h.draws
  all_goals simp

theorem AgreeLive.hostRead {s u : State} (h : AgreeLive s u) (n : Nat) :
    AgreeLive (Machine.hostRead n s) (Machine.hostRead n u) := by
  rw [hostRead_eq, hostRead_eq, regRead_snd, regRead_snd, h.regRead_fst, h.isDone, h.draws]
  exact { h with rdata := rfl, draws := rfl }

theorem AgreeLive.hostWait {s u : State} (h : AgreeLive s u) :
    AgreeLive (Machine.hostWait s) (Machine.hostWait u) := by
  unfold Machine.hostWait
  rw [h.isDone, h.agenda]
  split
  · exact h.hostRead 1
  · exact { h.hostRead 1 with agenda := rfl }

theorem AgreeLive.hostMemRead {s u : State} (h : AgreeLive s u) (a : Addr) :
    AgreeLive (Machine.hostMemRead a s) (Machine.hostMemRead a u) := by
  unfold Machine.hostMemRead
  rw [h.kindAt, h.mem, h.draws]
  split
  · exact { h with mem := rfl, rdata := rfl, draws := rfl }
  · exact { h with mem := rfl, rdata := rfl, draws := rfl }
  · exact { h with mem := rfl, rdata := rfl, draws := rfl }

/-! ### Issue -/

/-- R160, R161: acceptance writes every element that comes alive from the host's registers and the seeds. -/
theorem AgreeLive.acceptHash {s u : State} (h : AgreeLive s u) (c : Cfg) (v : Variant) :
    AgreeLive (Machine.acceptHash c v s) (Machine.acceptHash c v u) :=
  { h with
    ph := by simp [h.len]
    lcmd := rfl
    draws := by simp [h.draws]
    opl := fun _ => rfl
    window := fun _ => ⟨h.base, h.len⟩
    lanes := fun _ => ⟨rfl, rfl⟩
    mixl := fun _ => h.mixin
    out := fun _ => by simp [h.draws] }

theorem AgreeLive.acceptMix {s u : State} (h : AgreeLive s u) (i : Instr) :
    AgreeLive (Machine.acceptMix i s) (Machine.acceptMix i u) :=
  { h with
    ph := rfl
    lcmd := rfl
    draws := by simp [h.draws]
    opl := fun _ => rfl
    window := nofun
    lanes := nofun
    mixl := fun _ => h.mixin
    out := nofun }

theorem AgreeLive.exec {s u : State} (h : AgreeLive s u) (i : Instr) :
    SameOutcome (Machine.exec i s) (Machine.exec i u) := by
  obtain ⟨v, rfl⟩ | hm := instr_cases i
  · have hrange : outOfRange s = outOfRange u := by simp only [outOfRange, h.base, h.len]
    have hwin (k : AddrKind) : windowHas k s = windowHas k u := by simp only [windowHas, h.kinds, h.base, h.len]
    rw [exec_commandOf, exec_commandOf, issueHash, issueHash, h.busy, hrange, hwin, hwin]
    split
    · exact h.refuse _
    split
    · exact h.refuse _
    split
    · rfl
    split
    · rfl
    · exact h.acceptHash _ v
  · rw [exec_mix hm, exec_mix hm, issueMix, issueMix, h.busy]
    split
    · exact h.refuse _
    · exact h.acceptMix i

theorem AgreeLive.regWrite {s u : State} (h : AgreeLive s u) (n : Nat) (v : Word64) :
    SameOutcome (Machine.regWrite n v s) (Machine.regWrite n v u) := by
  unfold Machine.regWrite commandWrite
  rw [h.busy]
  split
  · split
    · exact h.refuse _
    · split
      · exact h.exec _
      · exact h.refuse _
  · exact h.plainWrite n v

theorem AgreeLive.hostStep {s u : State} (h : AgreeLive s u) (a : HostAct) :
    SameOutcome (Machine.hostStep a s) (Machine.hostStep a u) := by
  cases a with
  | regRead n => exact h.hostRead n
  | regWrite n v => exact h.regWrite n v
  | wait => exact h.hostWait
  | memRead x => exact h.hostMemRead x
  | memWrite x b => exact h.memSet x b
  | setKind x k => exact h.kindSet x k

/-! ### The engine's steps -/

/-- Reads that agree, and steps over their bytes that agree. -/
theorem AgreeLive.withBytes {s u : State} (h : AgreeLive s u) (as : List Nat) {k k' : List Byte → State}
    (hk : ∀ bs, AgreeLive (k bs) (k' bs)) : SameOutcome (Machine.withBytes s as k) (Machine.withBytes u as k') := by
  have hreads : memReads s as = memReads u as := memReads_congr h.kinds fun a _ => congrArg (memByte · a) h.mem
  unfold Machine.withBytes
  rw [hreads]
  split
  · exact hk _
  · exact h
  · rfl
  · rfl

/-- R23, R131: what the fill leaves in T[0..C-1] does not depend on what T held. -/
theorem scratchChunk_fillScratch_congr {size : Nat} (hs : size ≤ 32) (bytes : List Byte) (t t' : Vector Byte 32) :
    scratchChunk size (fillScratch size bytes t) = scratchChunk size (fillScratch size bytes t') := by
  apply List.ext_getElem
  · rw [length_scratchChunk hs, length_scratchChunk hs]
  · intro k hk hk'
    have hlt : k < size := by rwa [length_scratchChunk hs] at hk
    rw [getElem_scratchChunk _ (hlt.trans_le hs), getElem_scratchChunk _ (hlt.trans_le hs),
      fillScratch_of_lt_size bytes t _ hlt, fillScratch_of_lt_size bytes t' _ hlt]

/-- What two agreeing states of a hash phase share beyond the phase. -/
theorem AgreeLive.hash {s u : State} (h : AgreeLive s u) (hh : s.hashing = true) :
    s.opl = u.opl ∧ s.basel = u.basel ∧ s.lenl = u.lenl ∧ s.lanes = u.lanes ∧ s.i = u.i :=
  ⟨h.opl (busy_of_hashing hh), (h.window hh).1, (h.window hh).2, (h.lanes hh).1, (h.lanes hh).2⟩

theorem AgreeLive.afterTerm {s u : State} (h : AgreeLive s u) (hh : s.hashing = true) (c : Cfg) (v : Variant)
    (ch : List Byte) : AgreeLive (Machine.afterTerm c v s ch) (Machine.afterTerm c v u ch) := by
  obtain ⟨ho, hb, hn, hl, hi⟩ := h.hash hh
  exact { h with
    ph := rfl
    opl := fun _ => ho
    window := fun _ => ⟨hb, hn⟩
    lanes := fun _ => ⟨by simp [hl, hn], hi⟩
    mixl := nofun
    out := nofun }

theorem AgreeLive.afterLoop {s u : State} (h : AgreeLive s u) (hh : s.hashing = true) (c : Cfg) (v : Variant)
    (ch : List Byte) : AgreeLive (Machine.afterLoop c v s ch) (Machine.afterLoop c v u ch) := by
  obtain ⟨ho, hb, hn, hl, hi⟩ := h.hash hh
  exact { h with
    ph := by simp [hi, hn]
    opl := fun _ => ho
    window := fun _ => ⟨hb, hn⟩
    lanes := fun _ => ⟨by simp [hl, hi], by simp [hi]⟩
    mixl := by rw [afterLoop_ph]; split <;> exact nofun
    out := by rw [afterLoop_ph]; split <;> exact nofun }

theorem AgreeLive.afterTail {s u : State} (h : AgreeLive s u) (hh : s.hashing = true) (c : Cfg) (v : Variant)
    (bytes : List Byte) : AgreeLive (Machine.afterTail c v s bytes) (Machine.afterTail c v u bytes) := by
  obtain ⟨ho, hb, hn, hl, hi⟩ := h.hash hh
  have hfill := scratchChunk_fillScratch_congr (chunkSize_le v) bytes s.t u.t
  exact { h with
    ph := rfl
    opl := fun _ => ho
    window := fun _ => ⟨hb, hn⟩
    lanes := fun _ => ⟨by simp [hl, hn, hi, hfill], hi⟩
    mixl := nofun
    out := nofun }

theorem AgreeLive.finish {s u : State} (h : AgreeLive s u) (o : Outs) :
    AgreeLive (Machine.finish o s) (Machine.finish o u) :=
  { h with
    ph := rfl
    opl := nofun
    window := nofun
    lanes := nofun
    mixl := nofun
    out := fun _ => rfl }

theorem AgreeLive.engineStep {s u : State} (h : AgreeLive s u) (c : Cfg) :
    SameOutcome (Machine.engineStep c s) (Machine.engineStep c u) := by
  have hph := h.ph
  cases hp : s.ph with
  | idle =>
    simp only [Machine.engineStep, ← hph, hp]
    exact h
  | term =>
    have hh : s.hashing = true := by simp [State.hashing, hp]
    obtain ⟨ho, hb, hn, -, -⟩ := h.hash hh
    simp only [Machine.engineStep, ← hph, hp, stepTerm, termAddrs, ← ho, ← hb, ← hn]
    split
    · rfl
    split
    · exact h.withBytes _ fun bs => h.afterTerm hh c _ bs
    · rfl
  | loop =>
    have hh : s.hashing = true := by simp [State.hashing, hp]
    obtain ⟨ho, hb, hn, -, hi⟩ := h.hash hh
    simp only [Machine.engineStep, ← hph, hp, stepLoop, loopAddrs, ← ho, ← hb, ← hn, ← hi]
    split
    · rfl
    split
    · exact h.withBytes _ fun bs => h.afterLoop hh c _ bs
    · rfl
  | tail =>
    have hh : s.hashing = true := by simp [State.hashing, hp]
    obtain ⟨ho, hb, hn, -, hi⟩ := h.hash hh
    simp only [Machine.engineStep, ← hph, hp, stepTail, tailAddrs, ← ho, ← hb, ← hn, ← hi]
    split
    · rfl
    split
    · exact h.withBytes _ fun bs => h.afterTail hh c _ bs
    · rfl
  | final =>
    obtain ⟨ho, -, -, hl, -⟩ := h.hash (by simp [State.hashing, hp])
    simp only [Machine.engineStep, ← hph, hp, stepFinal, ← ho, ← hl]
    split
    · rfl
    · exact h.finish _
  | mixp =>
    have ho := h.opl (by simp [State.busy, hp])
    simp only [Machine.engineStep, ← hph, hp, stepMixp, ← ho, ← h.mixl hp]
    split
    · exact h.finish _
    split
    · exact h.finish _
    · rfl
  | done =>
    simp only [Machine.engineStep, ← hph, hp]
    exact h

/-- Settles O54: the two agendas are one, and the action of each turn keeps the agreement. -/
theorem deadElementsAreNeverRead : Obligations.DeadElementsAreNeverRead := by
  intro s u h
  unfold step
  rw [← h.agenda]
  split
  · exact h.engineStep _
  · exact (h.setAgenda _).engineStep _
  · exact (h.setAgenda _).hostStep _
  · exact (h.setAgenda _).resetEvent

end Sys2Proof.Machine
end
